-- ==== Sys2Proof/Config.lean ====
section
/-! DEFINITION. The parameters of 00_scope.md rule R4, and the host-side points that the spec leaves
open. -/

namespace Sys2Proof.Config

/-- WORD_MAX: the largest legal word. -/
@[simp] abbrev wordMax : Nat := 32775
/-- LIT_MAX: the largest literal. -/
@[simp] abbrev litMax : Nat := 32767
/-- MODULUS: the arithmetic modulus of `add` and `mult`. -/
@[simp] abbrev modulus : Nat := 32768
/-- REG_BASE: the word that encodes register 0. -/
@[simp] abbrev regBase : Nat := 32768
/-- NREGS: the number of general registers. -/
@[simp] abbrev nregs : Nat := 8
/-- MEM_WORDS: the number of memory cells. -/
@[simp] abbrev memWords : Nat := 32768
/-- NUM_OPCODES: the number of opcodes, ids 0 to 21. -/
@[simp] abbrev numOpcodes : Nat := 22
/-- OUT_LIMIT: `out` accepts only values below it. -/
@[simp] abbrev outLimit : Nat := 128
/-- MAX_OPERANDS: an opcode has 0 to 3 operand words. -/
@[simp] abbrev maxOperands : Nat := 3

/-- REG_RESET. DESIGN CHOICE (notes/assumptions/3.md, unsafe): the source states no reset value; the
spec's decision D2 takes 0 for every register and leaves it open as a parameter. -/
def regReset : Vector (BitVec 15) nregs := Vector.replicate nregs 0

/-- PC_RESET. DESIGN CHOICE (notes/assumptions/4.md, unsafe): the spec's decision D3. -/
def pcReset : BitVec 16 := 0

/-- Whether the watchpoint check takes an address operand's resolved value (true) or its raw word
(false): left open by 91_not_in_source.md N66, so it has no body (notes/assumptions/20.md, safe). -/
opaque watchUsesValue : Bool

/-- How many steps the debug command `step` runs when `n` is omitted: left open by
91_not_in_source.md N67, so it has no body (notes/assumptions/21.md, safe). -/
opaque stepDefault : Nat

/-- The first address that `show memory` shows when `from` is omitted: the vocabulary makes it
optional (60_exceptions.md rule R228) and the spec states no default, so it has no body
(notes/assumptions/38.md, safe). -/
opaque showFirst : Nat

/-- The last address that `show memory` shows when `to` is omitted, given the first: no default is
stated either (60_exceptions.md rule R228; notes/assumptions/38.md, safe). -/
opaque showLast : Nat → Nat

end Sys2Proof.Config
end

