-- ==== Sys2Proof/Word.lean ====
section
/-! DEFINITION. The value domain (00_scope.md rule R5, rule R6): words, literals, and the three
classes into which every 16-bit operand word falls. -/

namespace Sys2Proof

/-- A memory cell's content and a fetched word: 16 bits (rule R5; legal values 0 to 32775). -/
abbrev Word := BitVec 16

/-- A literal: the 15-bit unsigned value that registers, the stack and the ALU hold (rule R5). -/
abbrev Lit := BitVec 15

/-- A character code handed to the output port: 7 bits (46_io.md rule R192). -/
abbrev Code := BitVec 7

/-- One byte of the external program image (30_encoding.md rule R84); the block itself has no bytes. -/
abbrev Byte := BitVec 8

/-- The index of a general register (10_state.md rule R11). -/
abbrev RegIdx := Fin Config.nregs

/-- An operand word by the class of its value (rule R5): a literal, a register-encoded word, or an
invalid encoding (any 16-bit value of 32776 or more), which keeps its bits because the fault it
raises records them. -/
inductive Operand where
  | lit (v : Lit)
  | reg (i : RegIdx)
  | invalid (w : Word)
deriving DecidableEq, Repr

end Sys2Proof
end

