-- ==== Sys2Proof/Syntax.lean ====
section
/-! DEFINITION. The instruction set: one constructor per row of spec/opcode_table.json
(30_encoding.md rule R73), its operands in word order. -/

namespace Sys2Proof

/-- The 22 instructions (30_encoding.md rule R73, rule R87). `r` stands in a destination position,
`a` and `b` in value positions. An operand may be any operand word, legal or not: any operand word
decodes, and illegal ones fault in resolution (rule R74, rule R75). -/
inductive Instr where
  /-- id 0, format N: 40_system.md rule R110. -/
  | halt
  /-- id 1, format DV: 41_move_stack.md rule R120. -/
  | set (r a : Operand)
  /-- id 2, format V: 41_move_stack.md rule R121. -/
  | push (a : Operand)
  /-- id 3, format D: 41_move_stack.md rule R122. -/
  | pop (r : Operand)
  /-- id 4, format DVV: 42_compare.md rule R130. -/
  | eq (r a b : Operand)
  /-- id 5, format DVV: 42_compare.md rule R131. -/
  | gt (r a b : Operand)
  /-- id 6, format V: 43_jump_family.md rule R140. -/
  | jmp (a : Operand)
  /-- id 7, format VV: 43_jump_family.md rule R141. -/
  | jt (a b : Operand)
  /-- id 8, format VV: 43_jump_family.md rule R142. -/
  | jf (a b : Operand)
  /-- id 9, format DVV: 44_alu.md rule R161. -/
  | add (r a b : Operand)
  /-- id 10, format DVV: 44_alu.md rule R162. -/
  | mult (r a b : Operand)
  /-- id 11, format DVV: 44_alu.md rule R163. -/
  | mod (r a b : Operand)
  /-- id 12, format DVV: 44_alu.md rule R164. -/
  | and (r a b : Operand)
  /-- id 13, format DVV: 44_alu.md rule R165. -/
  | or (r a b : Operand)
  /-- id 14, format DV: 44_alu.md rule R166. -/
  | not (r a : Operand)
  /-- id 15, format DV: 45_memory_access.md rule R180. -/
  | rmem (r a : Operand)
  /-- id 16, format VV: 45_memory_access.md rule R181. -/
  | wmem (a b : Operand)
  /-- id 17, format V: 43_jump_family.md rule R143. -/
  | call (a : Operand)
  /-- id 18, format N: 43_jump_family.md rule R144. -/
  | ret
  /-- id 19, format V: 46_io.md rule R190. -/
  | out (a : Operand)
  /-- id 20, format D, the mnemonic `in`: 46_io.md rule R191. -/
  | inp (r : Operand)
  /-- id 21, format N: 40_system.md rule R111. -/
  | noop
deriving DecidableEq, Repr

end Sys2Proof
end

