-- ==== Sys2Proof/WellFormed.lean ====
section
/-! DEFINITION. Which instruction terms are legal (30_encoding.md rule R71, table of legal values),
and which are readings of a word at all. -/

namespace Sys2Proof

/-- A legal destination operand word is register-encoded, 32768 to 32775 (rule R71, rule R75). -/
def Operand.okDest : Operand → Bool
  | .reg _ => true
  | .lit _ => false
  | .invalid _ => false

/-- A legal value operand word is a literal or register-encoded, 0 to 32775 (rule R71, rule R74). -/
def Operand.okValue : Operand → Bool
  | .lit _ => true
  | .reg _ => true
  | .invalid _ => false

/-- The operand is the class of some 16-bit word: `invalid` holds only values of 32776 or more
(00_scope.md rule R5). -/
def Operand.isClass : Operand → Bool
  | .lit _ => true
  | .reg _ => true
  | .invalid w => decide (32776 ≤ w.toNat)

/-- Every operand word of the instruction is legal in its position. -/
def Instr.wellFormed : Instr → Bool
  | .halt => true
  | .set r a => r.okDest && a.okValue
  | .push a => a.okValue
  | .pop r => r.okDest
  | .eq r a b => r.okDest && a.okValue && b.okValue
  | .gt r a b => r.okDest && a.okValue && b.okValue
  | .jmp a => a.okValue
  | .jt a b => a.okValue && b.okValue
  | .jf a b => a.okValue && b.okValue
  | .add r a b => r.okDest && a.okValue && b.okValue
  | .mult r a b => r.okDest && a.okValue && b.okValue
  | .mod r a b => r.okDest && a.okValue && b.okValue
  | .and r a b => r.okDest && a.okValue && b.okValue
  | .or r a b => r.okDest && a.okValue && b.okValue
  | .not r a => r.okDest && a.okValue
  | .rmem r a => r.okDest && a.okValue
  | .wmem a b => a.okValue && b.okValue
  | .call a => a.okValue
  | .ret => true
  | .out a => a.okValue
  | .inp r => r.okDest
  | .noop => true

/-- Every operand of the instruction is the class of some word, legal in its position or not: these
are the instructions that a decoder can read. -/
def Instr.encodable : Instr → Bool
  | .halt => true
  | .set r a => r.isClass && a.isClass
  | .push a => a.isClass
  | .pop r => r.isClass
  | .eq r a b => r.isClass && a.isClass && b.isClass
  | .gt r a b => r.isClass && a.isClass && b.isClass
  | .jmp a => a.isClass
  | .jt a b => a.isClass && b.isClass
  | .jf a b => a.isClass && b.isClass
  | .add r a b => r.isClass && a.isClass && b.isClass
  | .mult r a b => r.isClass && a.isClass && b.isClass
  | .mod r a b => r.isClass && a.isClass && b.isClass
  | .and r a b => r.isClass && a.isClass && b.isClass
  | .or r a b => r.isClass && a.isClass && b.isClass
  | .not r a => r.isClass && a.isClass
  | .rmem r a => r.isClass && a.isClass
  | .wmem a b => a.isClass && b.isClass
  | .call a => a.isClass
  | .ret => true
  | .out a => a.isClass
  | .inp r => r.isClass
  | .noop => true

end Sys2Proof
end

