-- ==== Sys2Proof/Decode.lean ====
section
/-! DEFINITION. The instruction decoder and its encoder (30_encoding.md rule R70 to rule R75,
rule R80): the 22-way opcode dispatch, the class of an operand word, decode over a list of words,
and encode written from the same tables. -/

namespace Sys2Proof

/-- The opcode ids (30_encoding.md rule R73). -/
inductive Opcode where
  | halt | set | push | pop | eq | gt | jmp | jt | jf | add | mult
  | mod | and | or | not | rmem | wmem | call | ret | out | inp | noop
deriving DecidableEq, Repr

/-- The six instruction formats (rule R71): one letter per operand word, `D` a destination and `V` a
value position. -/
inductive Format where
  | n | v | d | dv | vv | dvv
deriving DecidableEq, Repr

/-- The number of operand words of a format (rule R71). -/
def Format.operandCount : Format → Nat
  | .n => 0
  | .v => 1
  | .d => 1
  | .dv => 2
  | .vv => 2
  | .dvv => 3

/-- The id of an opcode (rule R73). -/
def Opcode.id : Opcode → Nat
  | .halt => 0
  | .set => 1
  | .push => 2
  | .pop => 3
  | .eq => 4
  | .gt => 5
  | .jmp => 6
  | .jt => 7
  | .jf => 8
  | .add => 9
  | .mult => 10
  | .mod => 11
  | .and => 12
  | .or => 13
  | .not => 14
  | .rmem => 15
  | .wmem => 16
  | .call => 17
  | .ret => 18
  | .out => 19
  | .inp => 20
  | .noop => 21

/-- The opcode that an opcode word selects (rule R72): the word is compared as a plain number, and
every word above 21, register-encoded words among them, selects none. -/
def Opcode.ofWord (w : Word) : Option Opcode :=
  match w.toNat with
  | 0 => some .halt
  | 1 => some .set
  | 2 => some .push
  | 3 => some .pop
  | 4 => some .eq
  | 5 => some .gt
  | 6 => some .jmp
  | 7 => some .jt
  | 8 => some .jf
  | 9 => some .add
  | 10 => some .mult
  | 11 => some .mod
  | 12 => some .and
  | 13 => some .or
  | 14 => some .not
  | 15 => some .rmem
  | 16 => some .wmem
  | 17 => some .call
  | 18 => some .ret
  | 19 => some .out
  | 20 => some .inp
  | 21 => some .noop
  | _ => none

/-- The opcode word of an opcode (rule R70): the id as a plain number. -/
def Opcode.word (op : Opcode) : Word := BitVec.ofNat 16 op.id

/-- The format of an opcode (rule R71, rule R73). -/
def Opcode.format : Opcode → Format
  | .halt => .n
  | .set => .dv
  | .push => .v
  | .pop => .d
  | .eq => .dvv
  | .gt => .dvv
  | .jmp => .v
  | .jt => .vv
  | .jf => .vv
  | .add => .dvv
  | .mult => .dvv
  | .mod => .dvv
  | .and => .dvv
  | .or => .dvv
  | .not => .dv
  | .rmem => .dv
  | .wmem => .vv
  | .call => .v
  | .ret => .n
  | .out => .v
  | .inp => .d
  | .noop => .n

/-- The number of operand words of an opcode (rule R73, rule R80). -/
def Opcode.operandCount (op : Opcode) : Nat := op.format.operandCount

/-- The mnemonic of an opcode (rule R73, rule R81). -/
def Opcode.mnemonic : Opcode → String
  | .halt => "halt"
  | .set => "set"
  | .push => "push"
  | .pop => "pop"
  | .eq => "eq"
  | .gt => "gt"
  | .jmp => "jmp"
  | .jt => "jt"
  | .jf => "jf"
  | .add => "add"
  | .mult => "mult"
  | .mod => "mod"
  | .and => "and"
  | .or => "or"
  | .not => "not"
  | .rmem => "rmem"
  | .wmem => "wmem"
  | .call => "call"
  | .ret => "ret"
  | .out => "out"
  | .inp => "in"
  | .noop => "noop"

/-- All opcodes in table order (rule R73). -/
def Opcode.all : List Opcode :=
  [.halt, .set, .push, .pop, .eq, .gt, .jmp, .jt, .jf, .add, .mult,
   .mod, .and, .or, .not, .rmem, .wmem, .call, .ret, .out, .inp, .noop]

/-- The opcode that a mnemonic names (rule R81, the fixed opcode-name table). -/
def Opcode.ofMnemonic (name : String) : Option Opcode :=
  Opcode.all.find? fun op => op.mnemonic == name

/-- The class of an operand word (00_scope.md rule R5, rule R74, rule R75). -/
def decodeOperand (w : Word) : Operand :=
  if w.toNat ≤ 32767 then .lit (w.setWidth 15)
  else if h : w.toNat ≤ 32775 then
    .reg ⟨w.toNat - 32768, by rw [Config.nregs]; omega⟩
  else .invalid w

/-- The operand word of a class: a literal is its own value, register `N` is `32768 + N`
(00_scope.md rule R5, 10_state.md rule R11). -/
def Operand.word : Operand → Word
  | .lit v => v.setWidth 16
  | .reg i => BitVec.ofNat 16 (32768 + i.val)
  | .invalid w => w

/-- The operand that position `k` of a list of operand words holds. -/
def operandAt (ws : List Word) (k : Nat) : Operand := decodeOperand (ws.getD k 0)

/-- The instruction of an opcode and its operand words, each in its position (rule R71). A position
that the opcode does not have is not read. -/
def Opcode.assemble (op : Opcode) (ws : List Word) : Instr :=
  match op with
  | .halt => .halt
  | .set => .set (operandAt ws 0) (operandAt ws 1)
  | .push => .push (operandAt ws 0)
  | .pop => .pop (operandAt ws 0)
  | .eq => .eq (operandAt ws 0) (operandAt ws 1) (operandAt ws 2)
  | .gt => .gt (operandAt ws 0) (operandAt ws 1) (operandAt ws 2)
  | .jmp => .jmp (operandAt ws 0)
  | .jt => .jt (operandAt ws 0) (operandAt ws 1)
  | .jf => .jf (operandAt ws 0) (operandAt ws 1)
  | .add => .add (operandAt ws 0) (operandAt ws 1) (operandAt ws 2)
  | .mult => .mult (operandAt ws 0) (operandAt ws 1) (operandAt ws 2)
  | .mod => .mod (operandAt ws 0) (operandAt ws 1) (operandAt ws 2)
  | .and => .and (operandAt ws 0) (operandAt ws 1) (operandAt ws 2)
  | .or => .or (operandAt ws 0) (operandAt ws 1) (operandAt ws 2)
  | .not => .not (operandAt ws 0) (operandAt ws 1)
  | .rmem => .rmem (operandAt ws 0) (operandAt ws 1)
  | .wmem => .wmem (operandAt ws 0) (operandAt ws 1)
  | .call => .call (operandAt ws 0)
  | .ret => .ret
  | .out => .out (operandAt ws 0)
  | .inp => .inp (operandAt ws 0)
  | .noop => .noop

/-- Why a list of words is no instruction. -/
inductive DecodeReject where
  /-- There is no opcode word. -/
  | noOpcodeWord
  /-- The opcode word is not an opcode id (rule R72). -/
  | unknownOpcode (w : Word)
  /-- Fewer operand words follow than the opcode has (rule R76). -/
  | truncated (op : Opcode) (got : Nat)
deriving DecidableEq, Repr

/-- The decoder: the instruction at the head of a list of words and the words after it (rule R70,
rule R80: the length is known from the opcode alone). Total: any list is decoded or rejected. -/
def decode : List Word → Except DecodeReject (Instr × List Word)
  | [] => .error .noOpcodeWord
  | w :: rest =>
    match Opcode.ofWord w with
    | none => .error (.unknownOpcode w)
    | some op =>
      if rest.length < op.operandCount then .error (.truncated op rest.length)
      else .ok (op.assemble (rest.take op.operandCount), rest.drop op.operandCount)

/-- The opcode of an instruction (rule R73). -/
def Instr.opcode : Instr → Opcode
  | .halt => .halt
  | .set _ _ => .set
  | .push _ => .push
  | .pop _ => .pop
  | .eq _ _ _ => .eq
  | .gt _ _ _ => .gt
  | .jmp _ => .jmp
  | .jt _ _ => .jt
  | .jf _ _ => .jf
  | .add _ _ _ => .add
  | .mult _ _ _ => .mult
  | .mod _ _ _ => .mod
  | .and _ _ _ => .and
  | .or _ _ _ => .or
  | .not _ _ => .not
  | .rmem _ _ => .rmem
  | .wmem _ _ => .wmem
  | .call _ => .call
  | .ret => .ret
  | .out _ => .out
  | .inp _ => .inp
  | .noop => .noop

/-- The operands of an instruction in word order (rule R71, rule R73). -/
def Instr.operands : Instr → List Operand
  | .halt => []
  | .set r a => [r, a]
  | .push a => [a]
  | .pop r => [r]
  | .eq r a b => [r, a, b]
  | .gt r a b => [r, a, b]
  | .jmp a => [a]
  | .jt a b => [a, b]
  | .jf a b => [a, b]
  | .add r a b => [r, a, b]
  | .mult r a b => [r, a, b]
  | .mod r a b => [r, a, b]
  | .and r a b => [r, a, b]
  | .or r a b => [r, a, b]
  | .not r a => [r, a]
  | .rmem r a => [r, a]
  | .wmem a b => [a, b]
  | .call a => [a]
  | .ret => []
  | .out a => [a]
  | .inp r => [r]
  | .noop => []

/-- The destination operand of an instruction, if its format has one (rule R71, rule R75). -/
def Instr.destination : Instr → Option Operand
  | .halt => none
  | .set r _ => some r
  | .push _ => none
  | .pop r => some r
  | .eq r _ _ => some r
  | .gt r _ _ => some r
  | .jmp _ => none
  | .jt _ _ => none
  | .jf _ _ => none
  | .add r _ _ => some r
  | .mult r _ _ => some r
  | .mod r _ _ => some r
  | .and r _ _ => some r
  | .or r _ _ => some r
  | .not r _ => some r
  | .rmem r _ => some r
  | .wmem _ _ => none
  | .call _ => none
  | .ret => none
  | .out _ => none
  | .inp r => some r
  | .noop => none

/-- The jump family, the only instructions that assign `pc` (10_state.md rule R15). -/
def Instr.isJump : Instr → Bool
  | .halt => false
  | .set _ _ => false
  | .push _ => false
  | .pop _ => false
  | .eq _ _ _ => false
  | .gt _ _ _ => false
  | .jmp _ => true
  | .jt _ _ => true
  | .jf _ _ => true
  | .add _ _ _ => false
  | .mult _ _ _ => false
  | .mod _ _ _ => false
  | .and _ _ _ => false
  | .or _ _ _ => false
  | .not _ _ => false
  | .rmem _ _ => false
  | .wmem _ _ => false
  | .call _ => true
  | .ret => true
  | .out _ => false
  | .inp _ => false
  | .noop => false

/-- The encoder: the opcode word, then the operand words in order (rule R70). -/
def encode (i : Instr) : List Word := i.opcode.word :: i.operands.map Operand.word

/-- The number of words of an instruction (rule R80). -/
def Instr.length (i : Instr) : Nat := 1 + i.opcode.operandCount

/-- Word `k` of an instruction given as one number of `nbits` bits, the first word in bits 15 to 0;
every bit above `nbits` is 0. -/
def tableWordAt (nbits w k : Nat) : Word := BitVec.ofNat 16 ((w % 2 ^ nbits) >>> (16 * k))

/-- The words of an instruction given as one number, up to the longest instruction (rule R70). -/
def tableWords (nbits w : Nat) : List Word :=
  (List.range (1 + Config.maxOperands)).map (tableWordAt nbits w)

/-- What the decoder reads from an instruction given as one number. -/
def decodeTableWord (nbits w : Nat) : Option Instr :=
  match decode (tableWords nbits w) with
  | .ok (i, _) => some i
  | .error _ => none

end Sys2Proof
end

