-- ==== Sys2Proof/Machine/State.lean ====
section
/-! DEFINITION. The machine's state as plain data (10_state.md), the fault kinds
(60_exceptions.md rule R201 to rule R208), and the state after reset. -/

namespace Sys2Proof.Machine

/-- A written memory cell: its word address and the word it holds (10_state.md rule R20). -/
abbrev Cell := Nat × Word

/-- Memory: the written cells, addresses strictly rising. A cell that is not listed is unwritten
(10_state.md rule R20; notes/assumptions/7.md). -/
abbrev Memory := List Cell

/-- Why the machine halted (10_state.md rule R21). -/
inductive HaltCause where
  | haltInstruction
  | returnOnEmptyStack
  | ioExhausted
deriving DecidableEq, Repr

/-- The run state (10_state.md rule R21). -/
inductive RunState where
  | running
  | halted (cause : HaltCause)
deriving DecidableEq, Repr

/-- The sub-causes of an OperandError (60_exceptions.md rule R203). -/
inductive OperandCause where
  | badDestination
  | invalidWord
  | outRange
  | modZero
  | nonLiteralData
  | returnAddress
deriving DecidableEq, Repr

/-- The sub-causes of a MemoryFault (60_exceptions.md rule R205). -/
inductive MemoryCause where
  | unwritten
  | outOfRange
deriving DecidableEq, Repr

/-- The spec's fault kinds with the value each records (60_exceptions.md rule R201). The spec gives a
faulted step a next state (rule R210, rule R212), so a fault is recorded in `State.outcome` by a
next state and no step answers the host's `Outcome.fault` (notes/assumptions/1.md). -/
inductive Fault where
  /-- EncodingError(word or length), rule R202. Raised by `load`, by `memWrite` and so by the host's
  `set memory`; no instruction reaches it. Safe: nothing is loaded or stored. -/
  | encodingError (value : Nat)
  /-- OperandError(sub-cause, value), rule R203. Raised by resolving an operand, and by `out`, `mod`,
  `rmem` and `call`. Safe: the instruction has no effect but the advance of `pc`. -/
  | operandError (cause : OperandCause) (value : Nat)
  /-- StackUnderflow(), rule R204. Raised by `pop` on an empty stack. Safe: as above. -/
  | stackUnderflow
  /-- MemoryFault(sub-cause, addr), rule R205. Raised by the fetch of any word and by `rmem`. Safe: as
  above. -/
  | memoryFault (cause : MemoryCause) (addr : Nat)
  /-- DecodeError(word), rule R208. Raised by an opcode word above 21. Safe: as above. -/
  | decodeError (value : Nat)
deriving DecidableEq, Repr

/-- Why the model gives no meaning. -/
inductive Refusal where
  /-- An instruction that has no meaning yet, rejected in its arm of `exec`. Safe. No arm uses it. -/
  | notModelled (mnemonic : String)
deriving DecidableEq, Repr

/-- The outcome of a step (60_exceptions.md rule R200). -/
inductive StepOutcome where
  | continued
  | halted
  | faulted (f : Fault)
deriving DecidableEq, Repr

/-- The state of the debug controller, the host-side supervisor (10_state.md rule R28,
60_exceptions.md rule R220): three sets, held without repeats, and the count of steps. -/
structure Debug where
  breakpoints : List Nat
  breakops : List Opcode
  watches : List Nat
  cycles : Nat
deriving DecidableEq, Repr

/-- The state. The first five fields are the block's own tuple (10_state.md rule R10); then the two
streams (rule R25), the kept program image (rule R27), what the host sees of the last step
(rule R23), the model's own sticky record of the first fault (60_exceptions.md rule R212), and the
supervisor's state (rule R28). -/
structure State where
  /-- The general registers r0 to r7 (rule R11). -/
  regs : Vector Lit Config.nregs
  /-- The program counter, 0 to 32768 (rule R14). -/
  pc : Word
  /-- The stack, its top first (rule R17, rule R18). -/
  stack : List Lit
  /-- The written cells (rule R20). -/
  mem : Memory
  /-- The run state (rule R21). -/
  run : RunState
  /-- The input units not yet consumed, the next one first (rule R25, 46_io.md rule R193). -/
  input : List Lit
  /-- The character codes emitted so far, the oldest first (rule R25, 46_io.md rule R192). -/
  output : List Code
  /-- PROGRAM, the image that `load` kept (rule R27). -/
  program : List Word
  /-- The outcome of the last step (rule R23, 60_exceptions.md rule R200). -/
  outcome : StepOutcome
  /-- The first fault since the last reset (notes/assumptions/2.md); no instruction reads it. -/
  firstFault : Option Fault
  /-- The debug controller's state; no instruction reads it (rule R28). -/
  supervisor : Debug
deriving DecidableEq, Repr

/-- The cells of a list of words from an address upward (20_memory.md rule R44). -/
def Memory.ofWordsFrom : Nat → List Word → Memory
  | _, [] => []
  | a, w :: ws => (a, w) :: Memory.ofWordsFrom (a + 1) ws

/-- The memory that a program image fills: cell `i` holds word `i` (20_memory.md rule R44). -/
def Memory.ofWords (ws : List Word) : Memory := Memory.ofWordsFrom 0 ws

/-- The debug controller at construction (60_exceptions.md rule R220): sets empty. -/
def Debug.initial : Debug := { breakpoints := [], breakops := [], watches := [], cycles := 0 }

/-- The state right after reset for any register reset values REG_RESET, kept image and streams
(10_state.md rule R29; 92_eei_decisions.md D2 leaves REG_RESET open). -/
def State.resetWith (regReset : Vector Lit Config.nregs) (program : List Word) (input : List Lit)
    (output : List Code) (supervisor : Debug) : State :=
  { regs := regReset
    pc := Config.pcReset
    stack := []
    mem := Memory.ofWords program
    run := .running
    input := input
    output := output
    program := program
    outcome := .continued
    firstFault := none
    supervisor := supervisor }

/-- The machine right after reset with no program loaded: the power-on state
(70_reset_and_hazards.md rule R252). -/
def State.reset : State := State.resetWith Config.regReset [] [] [] Debug.initial

end Sys2Proof.Machine
end

