-- ==== Sys2Proof/Machine/Ops.lean ====
section
/-! DEFINITION. The primitives of 00_scope.md rule R7 over registers, memory, stack and streams, and
the three ways a step ends (60_exceptions.md rule R200): completing, halting, and raising a fault. -/

namespace Sys2Proof.Machine

/-- The type of what a meaning answers. -/
abbrev Result := Host.Outcome State Fault Refusal

/-! ### The register file (10_state.md rule R12) -/

/-- `x[i]`: the content of register `i`; reading has no side effect. -/
def State.getReg (s : State) (i : RegIdx) : Lit := s.regs[i]

/-- `x[i] <- v`: replace the content of register `i`. -/
def State.setReg (s : State) (i : RegIdx) (v : Lit) : State := { s with regs := s.regs.set i v }

/-! ### Memory (20_memory.md) -/

/-- The word in the cell at an address, `none` when the cell is unwritten (10_state.md rule R20). -/
def Memory.cell : Memory → Nat → Option Word
  | [], _ => none
  | (b, w) :: rest, a => if a = b then some w else Memory.cell rest a

/-- Make the cell at an address written with a word, keeping addresses strictly rising. -/
def Memory.put : Memory → Nat → Word → Memory
  | [], a, w => [(a, w)]
  | (b, v) :: rest, a, w =>
    if a < b then (a, w) :: (b, v) :: rest
    else if a = b then (a, w) :: rest
    else (b, v) :: Memory.put rest a w

/-- Every listed address is above a bound, and each above the one before it. -/
def Memory.risingAbove : Nat → Memory → Bool
  | _, [] => true
  | lo, (a, _) :: rest => decide (lo < a) && Memory.risingAbove a rest

/-- Addresses are strictly rising. -/
def Memory.rising : Memory → Bool
  | [] => true
  | (a, _) :: rest => Memory.risingAbove a rest

/-- The canonical form: addresses strictly rising, every one in the address space (20_memory.md
rule R40). With it, equal memories are equal lists. -/
def Memory.wf (m : Memory) : Bool := m.rising && m.all fun c => decide (c.1 < 32768)

/-- Every written cell holds a legal word, 0 to 32775 (20_memory.md rule R41). -/
def Memory.legal (m : Memory) : Bool := m.all fun c => decide (c.2.toNat ≤ 32775)

/-- `MemRead(addr, 1)` (20_memory.md rule R42). -/
def memRead (m : Memory) (addr : Nat) : Except Fault Word :=
  if Config.memWords ≤ addr then .error (.memoryFault .outOfRange addr)
  else
    match m.cell addr with
    | none => .error (.memoryFault .unwritten addr)
    | some w => .ok w

/-- `MemWrite(addr, 1, word)` (20_memory.md rule R43): the word is checked before the address. -/
def memWrite (m : Memory) (addr word : Nat) : Except Fault Memory :=
  if Config.wordMax < word then .error (.encodingError word)
  else if Config.memWords ≤ addr then .error (.memoryFault .outOfRange addr)
  else .ok (m.put addr (BitVec.ofNat 16 word))

/-! ### The stack (10_state.md rule R18) -/

/-- `stack_empty()`. -/
def State.stackEmpty (s : State) : Bool := s.stack.isEmpty

/-- `push(v)`: always succeeds. -/
def State.push (s : State) (v : Lit) : State := { s with stack := v :: s.stack }

/-- `pop()`: the top and the state without it, or StackUnderflow. -/
def State.pop (s : State) : Except Fault (Lit × State) :=
  match s.stack with
  | [] => .error .stackUnderflow
  | v :: rest => .ok (v, { s with stack := rest })

/-! ### The program counter and the ports -/

/-- `pc <- target` (10_state.md rule R15). -/
def State.jump (s : State) (target : Lit) : State := { s with pc := target.setWidth 16 }

/-- `emit(c)`: append one character code to the output stream (46_io.md rule R192). -/
def State.emit (s : State) (c : Code) : State := { s with output := s.output ++ [c] }

/-- `take_input()`: the next unit and the state without it, or `none` for `exhausted`
(46_io.md rule R193). -/
def State.takeInput (s : State) : Option (Lit × State) :=
  match s.input with
  | [] => none
  | c :: rest => some (c, { s with input := rest })

/-! ### The ends of a step (60_exceptions.md rule R200) -/

/-- The instruction completed: outcome Continued. -/
def complete (s : State) : Result := .next { s with outcome := .continued }

/-- `halt_machine(cause)`: the run state becomes Halted(cause) and the outcome is Halted
(10_state.md rule R21, 60_exceptions.md rule R207). -/
def haltMachine (cause : HaltCause) (s : State) : Result :=
  .next { s with run := .halted cause, outcome := .halted }

/-- `raise Kind(info)`: taking a fault. The step ends with outcome Faulted; registers, stack, memory,
both streams and the run state stay, and `pc` stays where the fetches so far have left it
(60_exceptions.md rule R210, rule R211). There is no handler, saved register or mode change, and no
return from a trap: the next step executes from the current `pc` (rule R212). -/
def raise (f : Fault) (s : State) : Result :=
  .next { s with outcome := .faulted f, firstFault := s.firstFault.or (some f) }

/-- Go on with a primitive's value, or raise its fault at the given state. -/
def orRaise {α : Type} (s : State) (x : Except Fault α) (k : α → Result) : Result :=
  match x with
  | .ok v => k v
  | .error f => raise f s

/-- Go on with a value that is there, or halt the machine with a cause. -/
def orHalt {α : Type} (cause : HaltCause) (s : State) (x : Option α) (k : α → Result) : Result :=
  match x with
  | some v => k v
  | none => haltMachine cause s

end Sys2Proof.Machine
end

