-- ==== Sys2Proof/Machine/Alu.lean ====
section
/-! DEFINITION. The ALU as a pure function of literals (44_alu.md rule R160, rule R168). -/

namespace Sys2Proof.Machine

/-- The literal of a number, bits 14 to 0: what lies above bit 14 is discarded (rule R160 (c)). -/
def narrow (n : Nat) : Lit := BitVec.ofNat 15 n

/-- `ADD`: the sum modulo 32768. -/
def aluAdd (va vb : Lit) : Lit := narrow ((va.toNat + vb.toNat) % Config.modulus)

/-- `MULT`: the product modulo 32768. -/
def aluMult (va vb : Lit) : Lit := narrow ((va.toNat * vb.toNat) % Config.modulus)

/-- `MOD`: the remainder of unsigned division, or `none`, the zero-divisor signal. -/
def aluMod (va vb : Lit) : Option Lit :=
  if vb.toNat = 0 then none else some (narrow (va.toNat % vb.toNat))

/-- `AND`: bitwise and. -/
def aluAnd (va vb : Lit) : Lit := va &&& vb

/-- `OR`: bitwise or. -/
def aluOr (va vb : Lit) : Lit := va ||| vb

/-- `NOT`: the complement of 15 bits. -/
def aluNot (va : Lit) : Lit := ~~~va

/-- `EQ`: 1 if the operands are equal, else 0. -/
def aluEq (va vb : Lit) : Lit := if va.toNat = vb.toNat then 1 else 0

/-- `GT`: 1 if the first operand is greater, unsigned, else 0. -/
def aluGt (va vb : Lit) : Lit := if vb.toNat < va.toNat then 1 else 0

end Sys2Proof.Machine
end

