-- ==== Sys2Proof/Machine/Operands.lean ====
section
/-! DEFINITION. Operand resolution, phase P4 of a step (30_encoding.md rule R74, rule R75). -/

namespace Sys2Proof.Machine

/-- `value(w)`: a literal is its own value, a register-encoded word gives the register's content, an
invalid encoding raises OperandError(InvalidWord) (rule R74). -/
def value (s : State) : Operand → Except Fault Lit
  | .lit v => .ok v
  | .reg i => .ok (s.getReg i)
  | .invalid w => .error (.operandError .invalidWord w.toNat)

/-- `dest(w)`: the register index of a register-encoded word; any other word raises
OperandError(BadDestination) and records the operand word (rule R75). -/
def dest : Operand → Except Fault RegIdx
  | .reg i => .ok i
  | .lit v => .error (.operandError .badDestination v.toNat)
  | .invalid w => .error (.operandError .badDestination w.toNat)

/-! Phase P4 of each format: the operands are resolved in word order and the first fault met is
raised (30_encoding.md rule R77, 60_exceptions.md rule R209). -/

/-- Format V. -/
def resolveV (s : State) (a : Operand) (k : Lit → Result) : Result :=
  orRaise s (value s a) k

/-- Format D. -/
def resolveD (s : State) (r : Operand) (k : RegIdx → Result) : Result :=
  orRaise s (dest r) k

/-- Format DV. -/
def resolveDV (s : State) (r a : Operand) (k : RegIdx → Lit → Result) : Result :=
  orRaise s (dest r) fun d => orRaise s (value s a) fun va => k d va

/-- Format VV. -/
def resolveVV (s : State) (a b : Operand) (k : Lit → Lit → Result) : Result :=
  orRaise s (value s a) fun va => orRaise s (value s b) fun vb => k va vb

/-- Format DVV. -/
def resolveDVV (s : State) (r a b : Operand) (k : RegIdx → Lit → Lit → Result) : Result :=
  orRaise s (dest r) fun d =>
    orRaise s (value s a) fun va => orRaise s (value s b) fun vb => k d va vb

end Sys2Proof.Machine
end

