-- ==== Sys2Proof/Machine/Arith.lean ====
section
/-! DEFINITION. Phases P4 to P6 of the ALU instructions (44_alu.md). -/

namespace Sys2Proof.Machine

/-- `add r, a, b`: `x[d] <- (va + vb) mod 32768` (rule R161). -/
def execAdd (r a b : Operand) (s : State) : Result :=
  resolveDVV s r a b fun d va vb => complete (s.setReg d (aluAdd va vb))

/-- `mult r, a, b`: `x[d] <- (va * vb) mod 32768` (rule R162). -/
def execMult (r a b : Operand) (s : State) : Result :=
  resolveDVV s r a b fun d va vb => complete (s.setReg d (aluMult va vb))

/-- The remainder, with the zero-divisor signal as its fault OperandError(ModZero) (rule R163; the
spec's decision D7). -/
def remainder (va vb : Lit) : Except Fault Lit :=
  match aluMod va vb with
  | some v => .ok v
  | none => .error (.operandError .modZero 0)

/-- `mod r, a, b`: `x[d] <- va mod vb`; a zero divisor raises OperandError(ModZero) (rule R163). -/
def execMod (r a b : Operand) (s : State) : Result :=
  resolveDVV s r a b fun d va vb =>
    orRaise s (remainder va vb) fun v => complete (s.setReg d v)

/-- `and r, a, b`: `x[d] <- va & vb` (rule R164). -/
def execAnd (r a b : Operand) (s : State) : Result :=
  resolveDVV s r a b fun d va vb => complete (s.setReg d (aluAnd va vb))

/-- `or r, a, b`: `x[d] <- va | vb` (rule R165). -/
def execOr (r a b : Operand) (s : State) : Result :=
  resolveDVV s r a b fun d va vb => complete (s.setReg d (aluOr va vb))

/-- `not r, a`: `x[d] <- (~va) & 0x7FFF` (rule R166). -/
def execNot (r a : Operand) (s : State) : Result :=
  resolveDV s r a fun d va => complete (s.setReg d (aluNot va))

end Sys2Proof.Machine
end

