-- ==== Sys2Proof/Machine/Compare.lean ====
section
/-! DEFINITION. Phases P4 to P6 of the comparisons (42_compare.md). -/

namespace Sys2Proof.Machine

/-- `eq r, a, b`: `x[d] <- (if va = vb then 1 else 0)` (rule R130). -/
def execEq (r a b : Operand) (s : State) : Result :=
  resolveDVV s r a b fun d va vb => complete (s.setReg d (aluEq va vb))

/-- `gt r, a, b`: `x[d] <- (if va > vb then 1 else 0)`, unsigned (rule R131). -/
def execGt (r a b : Operand) (s : State) : Result :=
  resolveDVV s r a b fun d va vb => complete (s.setReg d (aluGt va vb))

end Sys2Proof.Machine
end

