-- ==== Sys2Proof/Machine/InOut.lean ====
section
/-! DEFINITION. Phases P4 to P6 of input and output (46_io.md). -/

namespace Sys2Proof.Machine

/-- `out a`: emit one character code below 128; a greater value raises OperandError(OutRange)
(rule R190). -/
def execOut (a : Operand) (s : State) : Result :=
  resolveV s a fun va =>
    if Config.outLimit ≤ va.toNat then raise (.operandError .outRange va.toNat) s
    else complete (s.emit (va.setWidth 7))

/-- `in r`: `x[d] <- c` for the next input unit, or halt with cause IOExhausted (rule R191). -/
def execIn (r : Operand) (s : State) : Result :=
  resolveD s r fun d =>
    orHalt .ioExhausted s s.takeInput fun unit => complete (unit.2.setReg d unit.1)

end Sys2Proof.Machine
end

