-- ==== Sys2Proof/Machine/Jump.lean ====
section
/-! DEFINITION. Phases P4 to P6 of the jump family (43_jump_family.md). Here `s.pc` is already past
the instruction's words, so it is the return address of `call` (10_state.md rule R15). -/

namespace Sys2Proof.Machine

/-- `jmp a`: `pc <- va` (rule R140). -/
def execJmp (a : Operand) (s : State) : Result :=
  resolveV s a fun va => complete (s.jump va)

/-- `jt a, b`: `pc <- vb` if `va` is not 0 (rule R141). -/
def execJt (a b : Operand) (s : State) : Result :=
  resolveVV s a b fun va vb => complete (if va.toNat ≠ 0 then s.jump vb else s)

/-- `jf a, b`: `pc <- vb` if `va` is 0 (rule R142). -/
def execJf (a b : Operand) (s : State) : Result :=
  resolveVV s a b fun va vb => complete (if va.toNat = 0 then s.jump vb else s)

/-- `call a`: push the return address and jump; a return address that is no literal raises
OperandError(ReturnAddress) (rule R143). -/
def execCall (a : Operand) (s : State) : Result :=
  resolveV s a fun va =>
    if Config.litMax < s.pc.toNat then raise (.operandError .returnAddress s.pc.toNat) s
    else complete ((s.push (s.pc.setWidth 15)).jump va)

/-- `ret`: halt when the stack is empty, else `v <- pop(); pc <- v` (rule R144). -/
def execRet (s : State) : Result :=
  if s.stackEmpty then haltMachine .returnOnEmptyStack s
  else orRaise s s.pop fun top => complete (top.2.jump top.1)

end Sys2Proof.Machine
end

