-- ==== Sys2Proof/Machine/MemAccess.lean ====
section
/-! DEFINITION. Phases P4 to P6 of the one load and the one store (45_memory_access.md). -/

namespace Sys2Proof.Machine

/-- `rmem r, a`: `x[d] <- MemRead(va)`; a word that is no literal raises
OperandError(NonLiteralData) (rule R180). -/
def execRmem (r a : Operand) (s : State) : Result :=
  resolveDV s r a fun d va =>
    orRaise s (memRead s.mem va.toNat) fun m =>
      if Config.litMax < m.toNat then raise (.operandError .nonLiteralData m.toNat) s
      else complete (s.setReg d (m.setWidth 15))

/-- `wmem a, b`: `MemWrite(va, vb)` (rule R181). -/
def execWmem (a b : Operand) (s : State) : Result :=
  resolveVV s a b fun va vb =>
    orRaise s (memWrite s.mem va.toNat vb.toNat) fun m => complete { s with mem := m }

end Sys2Proof.Machine
end

