-- ==== Sys2Proof/Machine/MoveStack.lean ====
section
/-! DEFINITION. Phases P4 to P6 of data movement (41_move_stack.md). -/

namespace Sys2Proof.Machine

/-- `set r, a`: `x[d] <- va` (rule R120). -/
def execSet (r a : Operand) (s : State) : Result :=
  resolveDV s r a fun d va => complete (s.setReg d va)

/-- `push a`: `push(va)` (rule R121). -/
def execPush (a : Operand) (s : State) : Result :=
  resolveV s a fun va => complete (s.push va)

/-- `pop r`: `v <- pop(); x[d] <- v`, StackUnderflow on an empty stack (rule R122). -/
def execPop (r : Operand) (s : State) : Result :=
  resolveD s r fun d => orRaise s s.pop fun top => complete (top.2.setReg d top.1)

end Sys2Proof.Machine
end

