-- ==== Sys2Proof/Machine/System.lean ====
section
/-! DEFINITION. Phases P4 to P6 of the system instructions (40_system.md). -/

namespace Sys2Proof.Machine

/-- `halt`: stop with cause HaltInstruction (rule R110). -/
def execHalt (s : State) : Result := haltMachine .haltInstruction s

/-- `noop`: no effect (rule R111). -/
def execNoop (s : State) : Result := complete s

end Sys2Proof.Machine
end

