-- ==== Sys2Proof/Machine/Dispatch.lean ====
section
/-! DEFINITION. The dispatch (30_encoding.md rule R87): one arm per instruction. -/

namespace Sys2Proof.Machine

/-- Phases P4 to P6 of one instruction, from the state in which all its words have been fetched
(30_encoding.md rule R77). -/
def exec (i : Instr) (s : State) : Host.Outcome State Fault Refusal :=
  match i with
  | .halt => Sys2Proof.Machine.execHalt s
  | .set r a => Sys2Proof.Machine.execSet r a s
  | .push a => Sys2Proof.Machine.execPush a s
  | .pop r => Sys2Proof.Machine.execPop r s
  | .eq r a b => Sys2Proof.Machine.execEq r a b s
  | .gt r a b => Sys2Proof.Machine.execGt r a b s
  | .jmp a => Sys2Proof.Machine.execJmp a s
  | .jt a b => Sys2Proof.Machine.execJt a b s
  | .jf a b => Sys2Proof.Machine.execJf a b s
  | .add r a b => Sys2Proof.Machine.execAdd r a b s
  | .mult r a b => Sys2Proof.Machine.execMult r a b s
  | .mod r a b => Sys2Proof.Machine.execMod r a b s
  | .and r a b => Sys2Proof.Machine.execAnd r a b s
  | .or r a b => Sys2Proof.Machine.execOr r a b s
  | .not r a => Sys2Proof.Machine.execNot r a s
  | .rmem r a => Sys2Proof.Machine.execRmem r a s
  | .wmem a b => Sys2Proof.Machine.execWmem a b s
  | .call a => Sys2Proof.Machine.execCall a s
  | .ret => Sys2Proof.Machine.execRet s
  | .out a => Sys2Proof.Machine.execOut a s
  | .inp r => Sys2Proof.Machine.execIn r s
  | .noop => Sys2Proof.Machine.execNoop s

end Sys2Proof.Machine
end

