-- ==== Sys2Proof/Machine/Fetch.lean ====
section
/-! DEFINITION. The fetch primitive and the fetch of operand words, phases P1 and P3 of a step
(30_encoding.md rule R76, rule R77), and placing an instruction where it is fetched. -/

namespace Sys2Proof.Machine

/-- `fetch()`: read the word at `pc` and advance `pc` by one; when the read fails, `pc` is not
advanced (rule R76). -/
def fetch (s : State) : Except Fault (Word × State) :=
  match memRead s.mem s.pc.toNat with
  | .error f => .error f
  | .ok w => .ok (w, { s with pc := s.pc + 1 })

/-- Fetch `n` words in address order; a failed fetch gives its fault and the state at that point,
where `pc` is the address of the word that could not be read (rule R77 phase P3). -/
def fetchMany : Nat → State → Except (Fault × State) (List Word × State)
  | 0, s => .ok ([], s)
  | n + 1, s =>
    match fetch s with
    | .error f => .error (f, s)
    | .ok (w, s1) =>
      match fetchMany n s1 with
      | .error e => .error e
      | .ok (ws, s2) => .ok (w :: ws, s2)

/-- The step counter of the debug controller goes up by one (60_exceptions.md rule R225). -/
def State.countStep (s : State) : State :=
  { s with supervisor := { s.supervisor with cycles := s.supervisor.cycles + 1 } }

/-- Write words to consecutive cells from an address, as far as the address space reaches. -/
def Memory.putWords : Memory → Nat → List Word → Memory
  | m, _, [] => m
  | m, a, w :: ws => Memory.putWords (if a < Config.memWords then m.put a w else m) (a + 1) ws

/-- The number of words that an instruction with this opcode word has, 1 for no opcode
(30_encoding.md rule R80). -/
def lengthOfWord (w : Word) : Nat :=
  match Opcode.ofWord w with
  | none => 1
  | some op => 1 + op.operandCount

/-- A state with an instruction's words placed so that the next step runs it: the words are written
from `pc` upward, the run state is Running, and `pc` becomes 0 only if the instruction would not
fit between `pc` and the end of memory. -/
def State.placeWords (s : State) (ws : List Word) : State :=
  let pc := if s.pc.toNat + lengthOfWord (ws.headD 0) ≤ Config.memWords then s.pc else 0
  { s with mem := s.mem.putWords pc.toNat ws, pc := pc, run := .running }

end Sys2Proof.Machine
end

