-- ==== Sys2Proof/Machine/Cycle.lean ====
section
/-! DEFINITION. The instruction cycle (30_encoding.md rule R77). -/

namespace Sys2Proof.Machine

/-- Phases P1 to P6: fetch the opcode word, decode it, fetch the operand words, execute. Each fault
is raised at the state reached so far, so `pc` keeps every advance (60_exceptions.md rule R210). -/
def cycle (s : State) : Result :=
  match fetch s with
  | .error f => raise f s
  | .ok (w, s1) =>
    match Opcode.ofWord w with
    | none => raise (.decodeError w.toNat) s1
    | some op =>
      match fetchMany op.operandCount s1 with
      | .error (f, s') => raise f s'
      | .ok (ws, s2) => exec (op.assemble ws) s2

/-- One step: phase P0 first. A step of a halted machine does nothing and its outcome is Halted
(60_exceptions.md rule R215); a step begun while Running is counted (rule R225). -/
def stepState (s : State) : Result :=
  match s.run with
  | .halted _ => .next { s with outcome := .halted }
  | .running => cycle s.countStep

end Sys2Proof.Machine
end

