-- ==== Sys2Proof/Machine/Step.lean ====
section
/-! DEFINITION. The step function and the placing of a table word for it (60_exceptions.md
rule R216). -/

namespace Sys2Proof.Machine

/-- `step()`: exactly one fetch-decode-execute cycle (30_encoding.md rule R77). -/
def step (s : State) : Host.Outcome State Fault Refusal := stepState s

/-- The state with an instruction given as one number placed where `step` fetches its next
instruction (notes/assumptions/25.md). -/
def State.withFetchWord (s : State) (nbits w : Nat) : State := s.placeWords (tableWords nbits w)

end Sys2Proof.Machine
end

