-- ==== Sys2Proof/Machine/Flags.lean ====
section
/-! DEFINITION. The machine has no flags (10_state.md rule R22). What it has instead of a status
register is the read-only view that rule R23 defines for a host, computed here with the numeric
codes of 60_exceptions.md rule R201 and 92_eei_decisions.md D15. -/

namespace Sys2Proof.Machine

/-- The status view (10_state.md rule R23). -/
structure StatusView where
  run : BitVec 1
  haltCause : BitVec 2
  lastFault : BitVec 3
deriving DecidableEq, Repr

/-- Field `run`: 0 Running, 1 Halted. -/
def RunState.code : RunState → BitVec 1
  | .running => 0
  | .halted _ => 1

/-- Field `halt_cause`: 0 none, then the causes in the order of D15. -/
def RunState.causeCode : RunState → BitVec 2
  | .running => 0
  | .halted .haltInstruction => 1
  | .halted .returnOnEmptyStack => 2
  | .halted .ioExhausted => 3

/-- The code of a fault kind (60_exceptions.md rule R201). -/
def Fault.code : Fault → BitVec 3
  | .encodingError _ => 1
  | .operandError _ _ => 2
  | .stackUnderflow => 3
  | .memoryFault _ _ => 4
  | .decodeError _ => 5

/-- Field `last_fault`: 0 when the last step did not fault. -/
def StepOutcome.faultCode : StepOutcome → BitVec 3
  | .continued => 0
  | .halted => 0
  | .faulted f => f.code

/-- The status view of a state. -/
def State.statusView (s : State) : StatusView :=
  { run := s.run.code, haltCause := s.run.causeCode, lastFault := s.outcome.faultCode }

end Sys2Proof.Machine
end

