-- ==== Sys2Proof/Machine/HostOps.lean ====
section
/-! DEFINITION. What the host may do to the block between steps: load, reset, supply input, and use
the register file's own checked access (20_memory.md rule R44, 70_reset_and_hazards.md rule R250,
46_io.md rule R193, 10_state.md rule R12). No step calls any of it. -/

namespace Sys2Proof.Machine

/-- `reset()`: registers, `pc`, stack, memory and run state return to their reset values, memory from
the kept image; the image, both streams and the debug controller's state stay
(70_reset_and_hazards.md rule R250, rule R254). -/
def hostReset (s : State) : State :=
  State.resetWith Config.regReset s.program s.input s.output s.supervisor

/-- A legal program image: at most 32768 words, each 0 to 32775 (10_state.md rule R27). -/
def imageLegal (words : List Word) : Bool :=
  decide (words.length ≤ Config.memWords) && words.all fun w => decide (w.toNat ≤ Config.wordMax)

/-- `load(words)`: EncodingError for an image that is too long, then for a word of 32776 or more;
otherwise the image is kept and the reset initialisation done (20_memory.md rule R44). DESIGN CHOICE
(notes/assumptions/42.md): of several such words the spec does not say which one is recorded
(60_exceptions.md rule R202, "the offending word"); the first in image order is here. -/
def load (words : List Word) (s : State) : Except Fault State :=
  if Config.memWords < words.length then .error (.encodingError words.length)
  else
    match words.find? fun w => decide (Config.wordMax < w.toNat) with
    | some w => .error (.encodingError w.toNat)
    | none => .ok (hostReset { s with program := words })

/-- The host supplies input units: each must be a literal, a wider one cannot pass the port
(46_io.md rule R193; 93_implementation_defined.md U12). -/
def supplyInput (units : List Nat) (s : State) : Option State :=
  if units.all fun u => decide (u ≤ Config.litMax) then
    some { s with input := s.input ++ units.map (BitVec.ofNat 15) }
  else none

/-- The register file's `get(i)` for any index: outside `[0,8)` it is an OperandError
(10_state.md rule R12). -/
def readRegister (i : Nat) (s : State) : Except Fault Lit :=
  if h : i < Config.nregs then .ok (s.getReg ⟨i, h⟩) else .error (.operandError .badDestination i)

/-- The register file's `set(i, value)` for any index (10_state.md rule R12). -/
def writeRegister (i : Nat) (v : Lit) (s : State) : Except Fault State :=
  if h : i < Config.nregs then .ok (s.setReg ⟨i, h⟩ v) else .error (.operandError .badDestination i)

end Sys2Proof.Machine
end

