-- ==== Sys2Proof/Machine/Image.lean ====
section
/-! DEFINITION. The boundary with the outside files: the binary program image
(30_encoding.md rule R84) and the words of assembler tokens (rule R81, rule R82). The tokenizer and
the label pass are out of scope (00_scope.md rule R2 (f)). -/

namespace Sys2Proof.Machine

/-- The word of two image bytes, the low byte first (rule R84, 20_memory.md rule R48). -/
def wordOfBytes (lo hi : Byte) : Word := BitVec.ofNat 16 (lo.toNat + 256 * hi.toNat)

/-- The words of an image file; an odd number of bytes is refused (rule R84). -/
def wordsOfBytes : List Byte → Option (List Word)
  | [] => some []
  | [_] => none
  | lo :: hi :: rest => (wordsOfBytes rest).map fun ws => wordOfBytes lo hi :: ws

/-- The bytes of a list of words, little-endian (rule R84). -/
def bytesOfWords : List Word → List Byte
  | [] => []
  | w :: ws => BitVec.ofNat 8 (w.toNat % 256) :: BitVec.ofNat 8 (w.toNat / 256) :: bytesOfWords ws

/-- Why an image file makes no machine. -/
inductive ImageError where
  /-- The file has an odd number of bytes (rule R84, 92_eei_decisions.md D22). Safe. -/
  | oddByteCount
  /-- `load` refused the words (20_memory.md rule R44). Safe. -/
  | fault (f : Fault)
deriving DecidableEq, Repr

/-- Load an image file (rule R84, 70_reset_and_hazards.md rule R253). DESIGN CHOICE
(notes/assumptions/30.md): the odd byte count is reported before any fault of `load`. -/
def loadImage (bytes : List Byte) (s : State) : Except ImageError State :=
  match wordsOfBytes bytes with
  | none => .error .oddByteCount
  | some ws =>
    match load ws s with
    | .error f => .error (.fault f)
    | .ok s' => .ok s'

/-- An assembler token (rule R81): a decimal literal, a register reference `rN`, a bare identifier, a
character literal, or a backslash escape. -/
inductive Token where
  | decimal (n : Nat)
  | register (n : Nat)
  | name (text : String)
  | character (c : Char)
  | escape (c : Char)
deriving DecidableEq, Repr

/-- The code point of an escape (rule R82). PRESUMED (notes/assumptions/24.md, unsafe for assembly
text only): the spec takes these from general knowledge. -/
def escapeCode (c : Char) : Option Nat :=
  if c = 'a' then some 7
  else if c = 'b' then some 8
  else if c = 't' then some 9
  else if c = 'n' then some 10
  else if c = 'v' then some 11
  else if c = 'f' then some 12
  else if c = 'r' then some 13
  else if c = 's' then some 32
  else if c = '0' then some 0
  else none

/-- A number as a word, if it is a legal one (00_scope.md rule R5). -/
def legalWord (n : Nat) : Option Word :=
  if n ≤ Config.wordMax then some (BitVec.ofNat 16 n) else none

/-- The word of a token, given the declared labels; `none` is an assembly error (rule R81 to
rule R83). DESIGN CHOICE (notes/assumptions/39.md, unsafe for assembly text only): rule R81 resolves
a bare identifier against the opcode names or the labels and gives no precedence; a name that is both
is the opcode here, and of two labels of one name the first listed is taken. -/
def Token.word (labels : List (String × Nat)) : Token → Option Word
  | .decimal n => legalWord n
  | .register n => if n < Config.nregs then legalWord (Config.regBase + n) else none
  | .name t =>
    match Opcode.ofMnemonic t with
    | some op => some op.word
    | none => (labels.lookup t).bind legalWord
  | .character c => legalWord c.toNat
  | .escape c => (escapeCode c).bind legalWord

end Sys2Proof.Machine
end

