-- ==== Sys2Proof/Machine/Supervisor.lean ====
section
/-! DEFINITION. The debug controller, the host-side supervisor around the block
(60_exceptions.md rule R216, rule R220 to rule R229). It acts between steps only and changes what no
instruction does. -/

namespace Sys2Proof.Machine

/-- Why the debug controller stopped a command (rule R221). -/
inductive StopReason where
  | breakpoint
  | breakop
  | watch
deriving DecidableEq, Repr

/-- The opcode that the word at an address selects, if it is written and selects one. -/
def State.opcodeAt (s : State) (a : Nat) : Option Opcode := (s.mem.cell a).bind Opcode.ofWord

/-- The address that an address operand's word gives: its value or the raw word, which the spec
leaves open (rule R222; notes/assumptions/20.md); none when the word is unwritten. -/
def State.watchedOperand (s : State) (a : Nat) : Option Nat :=
  match s.mem.cell a with
  | none => none
  | some w =>
    if Config.watchUsesValue then
      match value s (decodeOperand w) with
      | .ok v => some v.toNat
      | .error _ => none
    else some w.toNat

/-- The address that the `rmem` or `wmem` at `pc`, not yet executed, would access (rule R222): the
second operand word of `rmem`, the first of `wmem`. -/
def State.pendingAccess (s : State) : Option Nat :=
  match s.opcodeAt s.pc.toNat with
  | none => none
  | some op =>
    if op = .rmem then s.watchedOperand (s.pc.toNat + 2)
    else if op = .wmem then s.watchedOperand (s.pc.toNat + 1)
    else none

/-- The check after each step, in the order of rule R221, with the watchpoint timing of rule R222. -/
def State.stopCheck (s : State) : Option StopReason :=
  if s.pc.toNat ∈ s.supervisor.breakpoints then some .breakpoint
  else if s.supervisor.breakops.any fun op => decide (s.opcodeAt s.pc.toNat = some op) then some .breakop
  else if s.supervisor.watches.any fun a => decide (s.pendingAccess = some a) then some .watch
  else none

/-- How a bounded series of steps ended (rule R216, rule R221). -/
inductive Ending where
  /-- All the steps asked for were made and each answered Continued. -/
  | cyclesDone
  /-- A step's outcome was Halted or Faulted. -/
  | outcome (o : StepOutcome)
  /-- The check after a step fired: Stopped(reason). -/
  | stopped (r : StopReason)
  /-- The model gave a step no next state; no step does this. -/
  | noMeaning
deriving DecidableEq, Repr

/-- At most `n` steps, ending at the first outcome that is not Continued or at the first stop
(rule R216, rule R221). -/
def advance : Nat → State → State × Ending
  | 0, s => (s, .cyclesDone)
  | n + 1, s =>
    match step s with
    | .fault _ => (s, .noMeaning)
    | .refused _ => (s, .noMeaning)
    | .next t =>
      if t.outcome = .continued then
        match t.stopCheck with
        | some r => (t, .stopped r)
        | none => advance n t
      else (t, .outcome t.outcome)

/-- A snapshot: `pc`, registers and stack as the numbers of its file, independent of memory
(rule R226). DESIGN CHOICE (notes/assumptions/23.md): the order of the stack is not stated; the top
stands first here. -/
structure Snapshot where
  pc : Nat
  registers : List Nat
  stack : List Nat
deriving DecidableEq, Repr

/-- What `show` can show (rule R223). -/
inductive ShowTarget where
  | pc
  | registers
  | stack
  | memory
  | breakpoints
  | watchpoints
  | breakops
  | cycles
deriving DecidableEq, Repr

/-- The optional range of `show [target] [from] [to]` (rule R228). -/
inductive ShowRange where
  | omitted
  | start (first : Nat)
  | span (first last : Nat)
deriving DecidableEq, Repr

/-- The first and the last address of a range; the spec states no default for an end that is omitted
(notes/assumptions/38.md). -/
def ShowRange.bounds : ShowRange → Nat × Nat
  | .omitted => (Config.showFirst, Config.showLast Config.showFirst)
  | .start first => (first, Config.showLast first)
  | .span first last => (first, last)

/-- What `set` can overwrite (rule R223). -/
inductive SetTarget where
  | pc
  | registers
  | stack
  | memory (addr : Nat)
deriving DecidableEq, Repr

/-- The command vocabulary (rule R228). -/
inductive Command where
  | run
  | reset
  | step (n : Option Nat)
  /-- `show` with no target. -/
  | summary
  /-- `show target [from] [to]`. -/
  | inspect (target : ShowTarget) (range : ShowRange)
  | set (target : SetTarget) (values : List Nat)
  | dump
  | restore (snapshot : Snapshot)
  | breakpoint (addr : Nat)
  | watch (addr : Nat)
  | breakop (name : String)
  /-- Any other name: reported as unknown (rule R227). -/
  | other (name : String)
deriving DecidableEq, Repr

/-- What `show` reports (rule R223). -/
inductive View where
  | summary (snapshot : Snapshot)
  | pc (n : Nat)
  | registers (rs : List Nat)
  | stack (entries : List Nat)
  | memory (cells : List (Nat × Option Word))
  | addresses (as : List Nat)
  | opcodes (names : List String)
  | cycles (n : Nat)
deriving DecidableEq, Repr

/-- Why a command changed nothing (rule R227: reported, and the session goes on). -/
inductive CommandError where
  /-- `set` with no value (rule R223). -/
  | noValue
  /-- A host move that breaks a duty of rule R223, or gives a wrong number of values: no meaning. Safe. -/
  | noMeaning
  /-- A fault of a memory access the command makes (rule R201). -/
  | fault (f : Fault)
  /-- A breakpoint or watch address that rule R224 does not allow. -/
  | badAddress
  /-- A name that is no mnemonic (rule R224). -/
  | unknownMnemonic
  /-- A name that is no command (rule R227). -/
  | unknownCommand
deriving DecidableEq, Repr

/-- What a command answers. -/
inductive Reply where
  | done
  | ended (e : Ending)
  | view (v : View)
  /-- `dump`: the snapshot file and, separately, the core file (rule R226). -/
  | dumped (snapshot : Snapshot) (core : List Word)
  | error (e : CommandError)
deriving DecidableEq, Repr

/-- The registers as numbers, r0 first (DEDUCED, notes/assumptions/44.md). -/
def State.registerList (s : State) : List Nat := s.regs.toList.map BitVec.toNat

/-- The snapshot of a state (rule R226). -/
def State.snapshot (s : State) : Snapshot :=
  { pc := s.pc.toNat, registers := s.registerList, stack := s.stack.map BitVec.toNat }

/-- The core file: the written cells' words as a raw stream, without their addresses (rule R226).
DESIGN CHOICE (notes/assumptions/41.md): the spec does not state the order of the words in the
stream; they stand here in ascending order of their addresses. -/
def State.coreDump (s : State) : List Word := s.mem.map Prod.snd

/-- Eight register values from a list of numbers, r0 first (DEDUCED, notes/assumptions/44.md). -/
def registersOf (rs : List Nat) : Vector Lit Config.nregs :=
  Vector.ofFn fun i => BitVec.ofNat 15 (rs.getD i 0)

/-- The host's duties for register and stack values: literals (rule R223). -/
def literals (vs : List Nat) : Bool := vs.all fun v => decide (v ≤ Config.litMax)

/-- `restore`: overwrite `pc`, registers and stack from a snapshot that keeps the host's duties
(rule R223, rule R226). -/
def restoreSnapshot (snap : Snapshot) (s : State) : Option State :=
  if snap.pc ≤ Config.memWords ∧ snap.registers.length = Config.nregs ∧ literals snap.registers ∧
      literals snap.stack then
    some { s with
      pc := BitVec.ofNat 16 snap.pc
      regs := registersOf snap.registers
      stack := snap.stack.map (BitVec.ofNat 15) }
  else none

/-- `set(target, values...)` (rule R223). DESIGN CHOICE (notes/assumptions/40.md): rule R223 says only
that `set stack` replaces the whole stack, not which of the values becomes the top; the first one
does here. -/
def setTarget (target : SetTarget) (values : List Nat) (s : State) : Except CommandError State :=
  match target, values with
  | _, [] => .error .noValue
  | .pc, [v] =>
    if v ≤ Config.memWords then .ok { s with pc := BitVec.ofNat 16 v } else .error .noMeaning
  | .pc, _ => .error .noMeaning
  | .registers, vs =>
    if vs.length = Config.nregs ∧ literals vs then .ok { s with regs := registersOf vs }
    else .error .noMeaning
  | .stack, vs =>
    if literals vs then .ok { s with stack := vs.map (BitVec.ofNat 15) } else .error .noMeaning
  | .memory a, [v] =>
    match memWrite s.mem a v with
    | .ok m => .ok { s with mem := m }
    | .error f => .error (.fault f)
  | .memory _, _ => .error .noMeaning

/-- The cells of an address range, or the first address outside the space as a MemoryFault
(rule R201, notes/assumptions/19.md). -/
def showMemory (s : State) (first last : Nat) : Except Fault (List (Nat × Option Word)) :=
  if last < first then .ok []
  else if Config.memWords ≤ last then .error (.memoryFault .outOfRange (max first Config.memWords))
  else .ok ((List.range' first (last + 1 - first)).map fun a => (a, s.mem.cell a))

/-- `show(target, range?)` (rule R223). Only a memory view reads the range: DESIGN CHOICE
(notes/assumptions/38.md), since the spec gives a range of another target no meaning. DESIGN CHOICE
(notes/assumptions/43.md): rule R223 does not state the order in which a view lists its entries; the
stack stands top first, each set newest first and memory in ascending address order here. -/
def inspectTarget (target : ShowTarget) (range : ShowRange) (s : State) : Except Fault View :=
  match target with
  | .pc => .ok (.pc s.pc.toNat)
  | .registers => .ok (.registers s.registerList)
  | .stack => .ok (.stack (s.stack.map BitVec.toNat))
  | .memory =>
    match showMemory s range.bounds.1 range.bounds.2 with
    | .ok cells => .ok (.memory cells)
    | .error f => .error f
  | .breakpoints => .ok (.addresses s.supervisor.breakpoints)
  | .watchpoints => .ok (.addresses s.supervisor.watches)
  | .breakops => .ok (.opcodes (s.supervisor.breakops.map Opcode.mnemonic))
  | .cycles => .ok (.cycles s.supervisor.cycles)

/-- What `breakpoint` and `watch` require of an address: above 0, in the address space, and written
(rule R224). -/
def State.registrable (s : State) (addr : Nat) : Bool :=
  decide (0 < addr ∧ addr < Config.memWords) && (s.mem.cell addr).isSome

/-- The debug controller's command execution (rule R223 to rule R228). `fuel` bounds `run`
(rule R257, notes/assumptions/22.md). -/
def execute (fuel : Nat) (c : Command) (s : State) : State × Reply :=
  match c with
  | .run => ((advance fuel s).1, .ended (advance fuel s).2)
  | .reset => (hostReset s, .done)
  | .step n =>
    ((advance (n.getD Config.stepDefault) s).1, .ended (advance (n.getD Config.stepDefault) s).2)
  | .summary => (s, .view (.summary s.snapshot))
  | .inspect target range =>
    match inspectTarget target range s with
    | .ok v => (s, .view v)
    | .error f => (s, .error (.fault f))
  | .set target values =>
    match setTarget target values s with
    | .ok t => (t, .done)
    | .error e => (s, .error e)
  | .dump => (s, .dumped s.snapshot s.coreDump)
  | .restore snap =>
    match restoreSnapshot snap s with
    | some t => (t, .done)
    | none => (s, .error .noMeaning)
  | .breakpoint addr =>
    if s.registrable addr then
      ({ s with supervisor := { s.supervisor with breakpoints := s.supervisor.breakpoints.insert addr } }, .done)
    else (s, .error .badAddress)
  | .watch addr =>
    if s.registrable addr then
      ({ s with supervisor := { s.supervisor with watches := s.supervisor.watches.insert addr } }, .done)
    else (s, .error .badAddress)
  | .breakop name =>
    match Opcode.ofMnemonic name with
    | some op =>
      ({ s with supervisor := { s.supervisor with breakops := s.supervisor.breakops.insert op } }, .done)
    | none => (s, .error .unknownMnemonic)
  | .other _ => (s, .error .unknownCommand)

end Sys2Proof.Machine
end

