-- ==== Sys2Proof/Safety.lean ====
section
/-! DEFINITION. The terms in which claims are stated: the invariant of the reachable states
(10_state.md rule R30), what a step leaves unchanged, the words at an address, and safe and finished
runs (70_reset_and_hazards.md rule R258). -/

namespace Sys2Proof.Machine

/-! ### The invariant -/

/-- The invariants that hold between steps (10_state.md rule R30). Registers and stack entries are
literals by their type; these say the rest. -/
structure State.Inv (s : State) : Prop where
  /-- Memory is in its canonical form, within the address space (20_memory.md rule R40). -/
  memWf : s.mem.wf = true
  /-- Every written cell holds a word in `[0, 32775]` (20_memory.md rule R41). -/
  memLegal : s.mem.legal = true
  /-- `pc` is in `[0, 32768]` (rule R16). -/
  pcBound : s.pc.toNat ≤ 32768
  /-- The kept image is a legal one (rule R27). -/
  programLegal : imageLegal s.program = true
  /-- The outcome of the last step is Halted exactly when the run state is (60_exceptions.md
  rule R200). -/
  haltedOutcome : s.outcome = .halted ↔ s.run ≠ .running
  /-- A last step that faulted has left a first fault on record (notes/assumptions/2.md). -/
  faultRecorded : ∀ f, s.outcome = .faulted f → s.firstFault ≠ none

/-! ### What a step leaves unchanged -/

/-- A separately named part of the state: one register, one memory cell, or one other field. -/
inductive Part where
  | reg (i : RegIdx)
  | pc
  | stack
  | cell (a : Nat)
  | run
  | input
  | output
  | program
  | outcome
  | firstFault
  | breakpoints
  | breakops
  | watches
  | cycles
deriving DecidableEq, Repr

/-- The two states hold the same in one part; a memory cell is compared through its read. -/
def Part.same : Part → State → State → Prop
  | .reg i, s, t => t.getReg i = s.getReg i
  | .pc, s, t => t.pc = s.pc
  | .stack, s, t => t.stack = s.stack
  | .cell a, s, t => t.mem.cell a = s.mem.cell a
  | .run, s, t => t.run = s.run
  | .input, s, t => t.input = s.input
  | .output, s, t => t.output = s.output
  | .program, s, t => t.program = s.program
  | .outcome, s, t => t.outcome = s.outcome
  | .firstFault, s, t => t.firstFault = s.firstFault
  | .breakpoints, s, t => t.supervisor.breakpoints = s.supervisor.breakpoints
  | .breakops, s, t => t.supervisor.breakops = s.supervisor.breakops
  | .watches, s, t => t.supervisor.watches = s.supervisor.watches
  | .cycles, s, t => t.supervisor.cycles = s.supervisor.cycles

/-- The frame: every register, every memory cell and every other part that is not listed is the same
in both states. -/
def ChangesOnly (parts : List Part) (s t : State) : Prop := ∀ p, p ∉ parts → p.same s t

/-- The instruction completes: `exec` answers a next state with outcome Continued in which register
`d` holds the number `n`, and every other register, every memory cell and every other part stays. -/
def WritesRegister (i : Instr) (s : State) (d : RegIdx) (n : Nat) : Prop :=
  ∃ t, exec i s = .next t ∧ (t.getReg d).toNat = n ∧ t.outcome = .continued ∧
    ChangesOnly [.reg d, .outcome] s t

/-- The instruction raises a fault: `exec` answers a next state with outcome Faulted(f), the run state
as it was, and nothing but the record of the outcome changed (60_exceptions.md rule R210). -/
def RaisesFault (i : Instr) (s : State) (f : Fault) : Prop :=
  ∃ t, exec i s = .next t ∧ t.outcome = .faulted f ∧ ChangesOnly [.outcome, .firstFault] s t

/-- The instruction halts the machine: `exec` answers a next state whose run state is Halted(cause)
and whose outcome is Halted, and nothing else changed (rule R207). -/
def HaltsWith (i : Instr) (s : State) (cause : HaltCause) : Prop :=
  ∃ t, exec i s = .next t ∧ t.run = .halted cause ∧ t.outcome = .halted ∧
    ChangesOnly [.run, .outcome] s t

/-! ### The words at an address -/

/-- The written words from an address upward, at most `n`, up to the first cell that cannot be
read. -/
def Memory.wordsFrom (m : Memory) : Nat → Nat → List Word
  | _, 0 => []
  | a, n + 1 =>
    match memRead m a with
    | .ok w => w :: Memory.wordsFrom m (a + 1) n
    | .error _ => []

/-- What the decoder reads at `pc`: at most four words, an opcode word and MAX_OPERANDS operand words
(30_encoding.md rule R70). -/
def State.decoded (s : State) : Except DecodeReject (Instr × List Word) :=
  decode (s.mem.wordsFrom s.pc.toNat 4)

/-- The words at `pc` decode to this instruction. -/
def State.runs (s : State) (i : Instr) : Prop := ∃ rest, s.decoded = .ok (i, rest)

/-- The state in which an instruction of `n` words is executed: `pc` past them, the step counted
(30_encoding.md rule R77, 60_exceptions.md rule R225). -/
def State.fetched (s : State) (n : Nat) : State :=
  { s.countStep with pc := s.pc + BitVec.ofNat 16 n }

/-! ### Runs -/

/-- `t` comes after `s` in some number of steps. -/
inductive Reaches : State → State → Prop where
  | refl (s : State) : Reaches s s
  | next {s t u : State} : Reaches s t → step t = .next u → Reaches s u

/-- A safe state: no step since the last reset has faulted. A run that faults has gone wrong
(70_reset_and_hazards.md rule R258 (b)). -/
def State.safe (s : State) : Bool := s.firstFault.isNone

/-- A final end of a run: the machine has halted with this cause (rule R258 (a)). -/
def State.finalEnd (s : State) (cause : HaltCause) : Prop :=
  s.outcome = .halted ∧ s.run = .halted cause

/-- A faulted end of a run: the last step faulted and the machine is still Running
(rule R258 (b)). -/
def State.faultedEnd (s : State) (f : Fault) : Prop :=
  s.outcome = .faulted f ∧ s.run = .running

end Sys2Proof.Machine
end

