-- ==== Sys2Proof/Certificates/Slice0/Obligations.lean ====
section
/-! DEFINITION. The statements for the provers. Each docstring says which sentence of the spec the
statement formalises; where the spec marks that sentence as its own decision (D<n>) or derivation,
the docstring says so. -/

open Sys2Proof Sys2Proof.Machine

/-! ### Encoding and decoding (30_encoding.md) -/

/-- 30_encoding.md rule R70, R71, R73: decoding an encoded instruction gives it back and leaves the
words after it, for every opcode and every operand, legal or not, that is the class of a word. -/
def Obligations.DecodeAfterEncodeIsIdentity : Prop :=
  ∀ (i : Instr) (rest : List Word), i.encodable = true → decode (encode i ++ rest) = .ok (i, rest)

/-- Rule R70, R80: an instruction has one encoding: the words a decoded instruction came from are its
encoding, and it is encodable. -/
def Obligations.EncodeAfterDecodeGivesTheWords : Prop :=
  ∀ (ws : List Word) (i : Instr) (rest : List Word),
    decode ws = .ok (i, rest) → encode i ++ rest = ws ∧ i.encodable = true

/-- 00_scope.md rule R5, whole: the legal words are 0 to 32775, split into literals and
register-encoded words; every value of 32776 or more is an invalid encoding. -/
def Obligations.WordsSplitIntoThreeClasses : Prop :=
  ∀ w : Word,
    (w.toNat ≤ 32767 → ∃ v : Lit, v.toNat = w.toNat ∧ decodeOperand w = .lit v) ∧
    (32768 ≤ w.toNat → w.toNat ≤ 32775 →
      ∃ i : RegIdx, i.val = w.toNat - 32768 ∧ decodeOperand w = .reg i) ∧
    (32776 ≤ w.toNat → decodeOperand w = .invalid w)

/-- 00_scope.md rule R6 (the spec's derivation from R5): the three classes by the bits of the word. -/
def Obligations.WordClassesByBits : Prop :=
  ∀ w : Word,
    (∀ v, decodeOperand w = .lit v ↔ w.getLsbD 15 = false ∧ v = w.extractLsb' 0 15) ∧
    (∀ i, decodeOperand w = .reg i ↔
      w.getLsbD 15 = true ∧ w.extractLsb' 3 12 = 0 ∧ i.val = (w.extractLsb' 0 3).toNat) ∧
    ((∃ x, decodeOperand w = .invalid x) ↔ w.getLsbD 15 = true ∧ w.extractLsb' 3 12 ≠ 0)

/-- Rule R72, R73 (ids by the spec's decision D1, the range above 32767 by D6): an opcode word is
compared as a plain number; 0 to 21 select their opcode and every greater word selects none. -/
def Obligations.OpcodeWordsSelectByNumber : Prop :=
  ∀ w : Word, (∀ op : Opcode, Opcode.ofWord w = some op ↔ w.toNat = op.id) ∧
    (Opcode.ofWord w = none ↔ 21 < w.toNat)

/-- Rule R71, R73 (the ids by the spec's decision D1, log entry 9): one word sequence of each family,
written out from the table, decodes to its instruction. -/
def Obligations.TableWordsDecode : Prop :=
  decode [0b0000000000000000#16] = .ok (.halt, []) ∧
  decode [0b0000000000000001#16, 0b1000000000000010#16, 0b0000000000000111#16] =
    .ok (.set (.reg 2) (.lit 7), []) ∧
  decode [0b0000000000000101#16, 0b1000000000000000#16, 0b0000000000000101#16,
    0b1000000000000111#16] = .ok (.gt (.reg 0) (.lit 5) (.reg 7), []) ∧
  decode [0b0000000000000111#16, 0b1000000000000000#16, 0b0000000000000110#16] =
    .ok (.jt (.reg 0) (.lit 6), []) ∧
  decode [0b0000000000001001#16, 0b1000000000000010#16, 0b1000000000000000#16,
    0b1000000000000001#16] = .ok (.add (.reg 2) (.reg 0) (.reg 1), []) ∧
  decode [0b0000000000010000#16, 0b0000000000000101#16, 0b0000000001000010#16] =
    .ok (.wmem (.lit 5) (.lit 66), []) ∧
  decode [0b0000000000010100#16, 0b1000000000000011#16] = .ok (.inp (.reg 3), [])

/-- Rule R80 (the spec's derivation from R70 and R73, the ids by its decision D1, log entry 9): the
length of an instruction in words is known from its opcode id alone, by the list of the rule. -/
def Obligations.LengthsFollowTheOpcode : Prop :=
  (∀ i : Instr, (encode i).length = i.length) ∧
  Opcode.all.map (fun op => (op.id, 1 + op.operandCount)) =
    [(0, 1), (1, 3), (2, 2), (3, 2), (4, 4), (5, 4), (6, 2), (7, 3), (8, 3), (9, 4), (10, 4),
     (11, 4), (12, 4), (13, 4), (14, 3), (15, 3), (16, 3), (17, 2), (18, 1), (19, 2), (20, 2),
     (21, 1)]

/-! ### Operand resolution, memory primitives, fetch -/

/-- Rule R74, whole: a literal is its own value, a register-encoded word gives the register's content,
any other word is OperandError(InvalidWord); the result is a literal; a word read from memory never
takes the third arm. -/
def Obligations.ValuePositionResolves : Prop :=
  ∀ (s : State) (w : Word),
    (w.toNat ≤ 32767 → ∃ v, value s (decodeOperand w) = .ok v ∧ v.toNat = w.toNat) ∧
    (∀ i : RegIdx, w.toNat = 32768 + i.val → value s (decodeOperand w) = .ok (s.getReg i)) ∧
    (32776 ≤ w.toNat →
      value s (decodeOperand w) = .error (.operandError .invalidWord w.toNat)) ∧
    (∀ v, value s (decodeOperand w) = .ok v → v.toNat ≤ 32767) ∧
    (s.Inv → ∀ a, memRead s.mem a = .ok w → ∃ v, value s (decodeOperand w) = .ok v)

/-- Rule R75 (a literal destination faults by the spec's decision D26): a destination word gives its
register index, and any word outside 32768 to 32775 is OperandError(BadDestination) with that word. -/
def Obligations.DestinationPositionDecodes : Prop :=
  ∀ w : Word,
    (∀ i : RegIdx, w.toNat = 32768 + i.val → dest (decodeOperand w) = .ok i) ∧
    (w.toNat ≤ 32767 ∨ 32776 ≤ w.toNat →
      dest (decodeOperand w) = .error (.operandError .badDestination w.toNat))

/-- 20_memory.md rule R42, whole: MemRead faults outside the space and on an unwritten cell, else
gives the cell's word, a value in `[0, 32775]`; within a step the out-of-range case arises only from
a fetch with `pc = 32768`, the unwritten case from a fetch or from `rmem`. -/
def Obligations.MemReadGivesTheCellOrFaults : Prop :=
  (∀ (m : Memory) (a : Nat),
    (32768 ≤ a → memRead m a = .error (.memoryFault .outOfRange a)) ∧
    (a < 32768 → m.cell a = none → memRead m a = .error (.memoryFault .unwritten a)) ∧
    (∀ w, a < 32768 → m.cell a = some w → memRead m a = .ok w)) ∧
  (∀ (s : State) (a : Nat) (w : Word), s.Inv → memRead s.mem a = .ok w → w.toNat ≤ 32775) ∧
  (∀ (s t : State) (a : Nat), s.Inv → step s = .next t → s.run = .running →
    (t.outcome = .faulted (.memoryFault .outOfRange a) →
      a = 32768 ∧ t.pc.toNat = 32768 ∧ ∃ e, s.decoded = .error e) ∧
    (t.outcome = .faulted (.memoryFault .unwritten a) →
      (t.pc.toNat = a ∧ ∃ e, s.decoded = .error e) ∨ ∃ r x, s.runs (.rmem r x)))

/-- 20_memory.md rule R43 (the order of the checks is the spec's decision D16): MemWrite refuses a
word of 32776 or more, then an address out of range; otherwise the cell holds the word, every other
cell is as it was, and the canonical form is kept. -/
def Obligations.MemWriteStoresOneCellOrFaults : Prop :=
  ∀ (m : Memory) (a n : Nat),
    (32776 ≤ n → memWrite m a n = .error (.encodingError n)) ∧
    (n ≤ 32775 → 32768 ≤ a → memWrite m a n = .error (.memoryFault .outOfRange a)) ∧
    (n ≤ 32775 → a < 32768 → ∃ m', memWrite m a n = .ok m' ∧
      (∃ w, m'.cell a = some w ∧ w.toNat = n) ∧ (∀ b, b ≠ a → m'.cell b = m.cell b) ∧
      (m.wf = true → m'.wf = true))

/-- Rule R76, whole: `fetch()` reads the word at `pc` and advances `pc` by one; when the read fails
`pc` keeps the address of the word that could not be read; and an instruction that fails in the fetch
of any of its words, the opcode word or word `k`, is a MemoryFault with `pc` at that word. -/
def Obligations.FetchReadsAndAdvances : Prop :=
  (∀ (s : State) (w : Word), memRead s.mem s.pc.toNat = .ok w →
    ∃ t, fetch s = .ok (w, t) ∧ t.pc.toNat = s.pc.toNat + 1 ∧ ChangesOnly [.pc] s t) ∧
  (∀ (s : State) (f : Fault), memRead s.mem s.pc.toNat = .error f → fetch s = .error f) ∧
  (∀ (s : State) (k : Nat), s.run = .running →
    (s.decoded = .error .noOpcodeWord ∧ k = 0 ∨
      ∃ op got, s.decoded = .error (.truncated op got) ∧ k = 1 + got) →
    ∃ t f, step s = .next t ∧ memRead s.mem (s.pc.toNat + k) = .error f ∧
      t.outcome = .faulted f ∧ (∃ c, f = .memoryFault c (s.pc.toNat + k)) ∧
      t.pc.toNat = s.pc.toNat + k)

/-! ### The step (30_encoding.md rule R77, 60_exceptions.md) -/

/-- Rule R77 (its phases are the spec's decision D4, log entry 10; the count of the step, whatever its
outcome, is decision D20 of rule R225, log entry 6): when the words at `pc` decode to an instruction,
the step of a running machine is that instruction's execution from the state in which `pc` is past its
words and the step is counted. -/
def Obligations.StepRunsTheDecodedInstruction : Prop :=
  ∀ (s : State) (i : Instr) (rest : List Word), s.run = .running → s.decoded = .ok (i, rest) →
    step s = exec i (s.fetched i.length)

/-- 60_exceptions.md rule R208 (a separate kind, and the range above 32767, by the spec's decision
D6): an opcode word above 21 raises DecodeError with that word, `pc = A0 + 1`, nothing else changed. -/
def Obligations.UnknownOpcodeRaisesDecodeError : Prop :=
  ∀ (s : State) (w : Word), s.run = .running → memRead s.mem s.pc.toNat = .ok w → 21 < w.toNat →
    ∃ t, step s = .next t ∧ t.outcome = .faulted (.decodeError w.toNat) ∧
      t.pc.toNat = s.pc.toNat + 1 ∧ ChangesOnly [.pc, .outcome, .firstFault, .cycles] s t

/-- 60_exceptions.md rule R215 (a further step as a no-operation is the spec's decision D13): a step
of a halted machine answers Halted and changes nothing, however many are taken. -/
def Obligations.HaltedIsTerminal : Prop :=
  (∀ (s : State) (c : HaltCause), s.run = .halted c →
    ∃ t, step s = .next t ∧ t.outcome = .halted ∧ ChangesOnly [.outcome] s t) ∧
  (∀ (s t : State) (c : HaltCause), s.run = .halted c → Reaches s t → ChangesOnly [.outcome] s t)

/-- 60_exceptions.md rule R210 (`pc` after a fault is the spec's decision D5): a faulted step changes
nothing but `pc` (and the records of the step): the run state stays Running, and `pc` has advanced
past every word fetched. That the run counts as unsafe is the model's own record (log entry 2). -/
def Obligations.FaultedStepChangesOnlyThePc : Prop :=
  ∀ (s t : State) (f : Fault), step s = .next t → t.outcome = .faulted f →
    t.faultedEnd f ∧ t.safe = false ∧ ChangesOnly [.pc, .outcome, .firstFault, .cycles] s t ∧
    (s.decoded = .error .noOpcodeWord → t.pc = s.pc) ∧
    (∀ w, s.decoded = .error (.unknownOpcode w) → t.pc.toNat = s.pc.toNat + 1) ∧
    (∀ op got, s.decoded = .error (.truncated op got) → t.pc.toNat = s.pc.toNat + 1 + got) ∧
    (∀ i rest, s.decoded = .ok (i, rest) → t.pc.toNat = s.pc.toNat + i.length)

/-- Rule R200: every step returns exactly one outcome; the model gives every state a next state, a
faulted step too (its own reading of R210 and R212, log entry 1), and refuses nothing. -/
def Obligations.EveryStepHasANextState : Prop :=
  ∀ s : State, ∃ t, step s = .next t

/-- 10_state.md rule R30 (the spec's derivation): the invariants hold between steps. -/
def Obligations.StepKeepsTheInvariant : Prop :=
  ∀ s t : State, s.Inv → step s = .next t → t.Inv

/-- Rule R29, R30: the state after reset meets the invariants, for every legal image and every
register reset value, streams and supervisor state. -/
def Obligations.ResetMeetsTheInvariant : Prop :=
  State.reset.Inv ∧ ∀ (regs : Vector Lit Config.nregs) (program : List Word) (input : List Lit)
    (output : List Code) (supervisor : Debug), imageLegal program = true →
    (State.resetWith regs program input output supervisor).Inv

/-- 20_memory.md rule R58, 60_exceptions.md rule R202 to R205, R208 (derivations of the spec, with
decisions D6 to D9): the only faults that a step can reach, with the values they record. -/
def Obligations.OnlyReachableFaultsAreRaised : Prop :=
  ∀ (s t : State) (f : Fault), s.Inv → step s = .next t → t.outcome = .faulted f →
    match f with
    | .encodingError _ => False
    | .operandError .badDestination v => v ≤ 32767
    | .operandError .invalidWord _ => False
    | .operandError .outRange v => 128 ≤ v ∧ v ≤ 32767
    | .operandError .modZero v => v = 0
    | .operandError .nonLiteralData v => 32768 ≤ v ∧ v ≤ 32775
    | .operandError .returnAddress v => v = 32768 ∧ s.pc.toNat = 32766
    | .stackUnderflow => s.stack = []
    | .memoryFault .unwritten a => a < 32768 ∧ s.mem.cell a = none
    | .memoryFault .outOfRange a => a = 32768
    | .decodeError v => 21 < v ∧ v ≤ 32775

/-- 10_state.md rule R15: only the jump family assigns `pc`; every other instruction leaves it just
past its own words, whatever its outcome. -/
def Obligations.OnlyTheJumpFamilyAssignsThePc : Prop :=
  ∀ (s t : State) (i : Instr), s.run = .running → s.runs i → i.isJump = false →
    step s = .next t → t.pc.toNat = s.pc.toNat + i.length

/-- 20_memory.md rule R41, R46, 45_memory_access.md rule R181: a step that changes a memory cell is a
`wmem` whose address operand names that cell, and the cell then holds its data, a literal. -/
def Obligations.OnlyWmemChangesMemory : Prop :=
  ∀ (s t : State) (a : Nat), step s = .next t → t.mem.cell a ≠ s.mem.cell a →
    ∃ x y va vb, s.run = .running ∧ s.runs (.wmem x y) ∧ value s x = .ok va ∧ value s y = .ok vb ∧
      va.toNat = a ∧ ∃ w, t.mem.cell a = some w ∧ w.toNat = vb.toNat

/-- 10_state.md rule R20: no step makes a written cell unwritten, over any run. -/
def Obligations.WrittenCellsStayWritten : Prop :=
  ∀ (s t : State) (a : Nat), Reaches s t → s.mem.cell a ≠ none → t.mem.cell a ≠ none

/-- 10_state.md rule R17: the stack changes only by `push`, `call`, `pop` and `ret`, which add or
remove its top; no step reads or writes another entry. -/
def Obligations.StackChangesOnlyAtItsTop : Prop :=
  ∀ s t : State, step s = .next t →
    t.stack = s.stack ∨
    (s.run = .running ∧ (∃ a, s.runs (.push a) ∨ s.runs (.call a)) ∧
      ∃ v, t.stack = v :: s.stack) ∨
    (s.run = .running ∧ ((∃ r, s.runs (.pop r)) ∨ s.runs .ret) ∧ ∃ v, s.stack = v :: t.stack)

/-- 10_state.md rule R25: the block only appends to the output and only removes the first unit of the
input, and only `out` and `in` do so. -/
def Obligations.StreamsOnlyGrowAndDrain : Prop :=
  ∀ s t : State, step s = .next t →
    (t.output = s.output ∨
      (∃ a, s.runs (.out a)) ∧ ∃ c, t.output = s.output ++ [c]) ∧
    (t.input = s.input ∨ (∃ r, s.runs (.inp r)) ∧ ∃ c, s.input = c :: t.input)

/-- 10_state.md rule R21, 60_exceptions.md rule R207: a running machine halts only by `halt`, by `ret`
on an empty stack, or by `in` with no input, with that cause; `pc` is left past the instruction and
nothing else changes. -/
def Obligations.OnlyThreeWaysToHalt : Prop :=
  ∀ (s t : State) (c : HaltCause), s.run = .running → step s = .next t → t.run = .halted c →
    t.finalEnd c ∧ ChangesOnly [.pc, .run, .outcome, .cycles] s t ∧
    ((s.runs .halt ∧ c = .haltInstruction ∧ t.pc.toNat = s.pc.toNat + 1) ∨
      (s.runs .ret ∧ s.stack = [] ∧ c = .returnOnEmptyStack ∧ t.pc.toNat = s.pc.toNat + 1) ∨
      (∃ r, s.runs (.inp r) ∧ s.input = [] ∧ c = .ioExhausted ∧ t.pc.toNat = s.pc.toNat + 2))

/-- 60_exceptions.md rule R225 (the counting rule is the spec's decision D20): the cycle counter goes
up by one for a step begun while Running, whatever its outcome, and stays while Halted. -/
def Obligations.CycleCounterCountsRunningSteps : Prop :=
  ∀ s t : State, step s = .next t →
    t.supervisor.cycles = s.supervisor.cycles + (if s.run = .running then 1 else 0)

/-- 10_state.md rule R27, R28: no run of the program changes the kept image or the supervisor
controller's sets. -/
def Obligations.StepsKeepImageAndDebugSets : Prop :=
  ∀ s t : State, Reaches s t → t.program = s.program ∧
    t.supervisor.breakpoints = s.supervisor.breakpoints ∧ t.supervisor.breakops = s.supervisor.breakops ∧
    t.supervisor.watches = s.supervisor.watches

/-! ### Instructions: results, completion and frame -/

/-- 40_system.md rule R110, R111: `halt` sets the run state to Halted(HaltInstruction); `noop`
completes and changes nothing. -/
def Obligations.HaltStopsAndNoopDoesNothing : Prop :=
  ∀ s : State, HaltsWith .halt s .haltInstruction ∧
    ∃ t, exec .noop s = .next t ∧ t.outcome = .continued ∧ ChangesOnly [.outcome] s t

/-- 41_move_stack.md rule R120: `set r, a` writes the value of `a` to the destination register. -/
def Obligations.SetCopiesTheValue : Prop :=
  ∀ (s : State) (d : RegIdx) (a : Operand) (va : Lit), value s a = .ok va →
    WritesRegister (.set (.reg d) a) s d va.toNat

/-- 41_move_stack.md rule R121: `push a` makes the value of `a` the new top of the stack. -/
def Obligations.PushAddsTheTop : Prop :=
  ∀ (s : State) (a : Operand) (va : Lit), value s a = .ok va →
    ∃ t, exec (.push a) s = .next t ∧ t.stack = va :: s.stack ∧ t.outcome = .continued ∧
      ChangesOnly [.stack, .outcome] s t

/-- 41_move_stack.md rule R122: `pop r` moves the top of the stack into the destination register, and
raises StackUnderflow on an empty stack. -/
def Obligations.PopMovesTheTopOrUnderflows : Prop :=
  ∀ (s : State) (d : RegIdx),
    (∀ v rest, s.stack = v :: rest → ∃ t, exec (.pop (.reg d)) s = .next t ∧ t.getReg d = v ∧
      t.stack = rest ∧ t.outcome = .continued ∧ ChangesOnly [.reg d, .stack, .outcome] s t) ∧
    (s.stack = [] → RaisesFault (.pop (.reg d)) s .stackUnderflow)

/-- 42_compare.md rule R130: `eq` writes 1 if the two values are equal and else 0. -/
def Obligations.EqWritesOneOrZero : Prop :=
  ∀ (s : State) (d : RegIdx) (a b : Operand) (va vb : Lit), value s a = .ok va →
    value s b = .ok vb →
    WritesRegister (.eq (.reg d) a b) s d (if va.toNat = vb.toNat then 1 else 0)

/-- 42_compare.md rule R131: `gt` writes 1 if the first value is greater, unsigned, and else 0. -/
def Obligations.GtComparesUnsigned : Prop :=
  ∀ (s : State) (d : RegIdx) (a b : Operand) (va vb : Lit), value s a = .ok va →
    value s b = .ok vb →
    WritesRegister (.gt (.reg d) a b) s d (if va.toNat > vb.toNat then 1 else 0)

/-- 43_jump_family.md rule R140: `jmp a` assigns the value of `a` to `pc`. -/
def Obligations.JmpAssignsThePc : Prop :=
  ∀ (s : State) (a : Operand) (va : Lit), value s a = .ok va →
    ∃ t, exec (.jmp a) s = .next t ∧ t.pc.toNat = va.toNat ∧ t.outcome = .continued ∧
      ChangesOnly [.pc, .outcome] s t

/-- 43_jump_family.md rule R141, R142: `jt` jumps exactly when the condition is not 0 and `jf` exactly
when it is 0; otherwise `pc` stays past the instruction. -/
def Obligations.JtAndJfAreComplements : Prop :=
  ∀ (s : State) (a b : Operand) (va vb : Lit), value s a = .ok va → value s b = .ok vb →
    (∃ t, exec (.jt a b) s = .next t ∧
      t.pc.toNat = (if va.toNat ≠ 0 then vb.toNat else s.pc.toNat) ∧ t.outcome = .continued ∧
      ChangesOnly [.pc, .outcome] s t) ∧
    (∃ t, exec (.jf a b) s = .next t ∧
      t.pc.toNat = (if va.toNat = 0 then vb.toNat else s.pc.toNat) ∧ t.outcome = .continued ∧
      ChangesOnly [.pc, .outcome] s t)

/-- 43_jump_family.md rule R143 (the faulting case is the spec's decision D9): `call a` pushes the
address after the instruction and jumps; where that address is no literal it raises
OperandError(ReturnAddress) and pushes nothing. -/
def Obligations.CallPushesTheReturnAddress : Prop :=
  ∀ (s : State) (a : Operand) (va : Lit), value s a = .ok va →
    (s.pc.toNat ≤ 32767 → ∃ t ra, exec (.call a) s = .next t ∧ t.stack = ra :: s.stack ∧
      ra.toNat = s.pc.toNat ∧ t.pc.toNat = va.toNat ∧ t.outcome = .continued ∧
      ChangesOnly [.stack, .pc, .outcome] s t) ∧
    (32768 ≤ s.pc.toNat →
      RaisesFault (.call a) s (.operandError .returnAddress s.pc.toNat))

/-- 43_jump_family.md rule R144: `ret` moves the top of the stack into `pc`, and halts the machine
when the stack is empty. -/
def Obligations.RetReturnsOrHalts : Prop :=
  ∀ s : State,
    (∀ v rest, s.stack = v :: rest → ∃ t, exec .ret s = .next t ∧ t.pc.toNat = v.toNat ∧
      t.stack = rest ∧ t.outcome = .continued ∧ ChangesOnly [.pc, .stack, .outcome] s t) ∧
    (s.stack = [] → HaltsWith .ret s .returnOnEmptyStack)

/-- 95_test_vectors.md S6 (a testable property of the source): `call` then `ret` returns to the
instruction after the call's operand, with the stack as it was before, whatever else the subroutine
changed, provided that it left the stack as it found it. -/
def Obligations.RetUndoesCall : Prop :=
  ∀ (s t u : State) (a : Operand), exec (.call a) s = .next t → t.outcome = .continued →
    u.stack = t.stack →
    ∃ v, exec .ret u = .next v ∧ v.outcome = .continued ∧ v.pc = s.pc ∧ v.stack = s.stack

/-- 44_alu.md rule R161: `add` writes the sum modulo 32768. -/
def Obligations.AddIsModulo32768 : Prop :=
  ∀ (s : State) (d : RegIdx) (a b : Operand) (va vb : Lit), value s a = .ok va →
    value s b = .ok vb →
    WritesRegister (.add (.reg d) a b) s d ((va.toNat + vb.toNat) % 32768)

/-- 44_alu.md rule R162: `mult` writes the product modulo 32768. -/
def Obligations.MultIsModulo32768 : Prop :=
  ∀ (s : State) (d : RegIdx) (a b : Operand) (va vb : Lit), value s a = .ok va →
    value s b = .ok vb →
    WritesRegister (.mult (.reg d) a b) s d ((va.toNat * vb.toNat) % 32768)

/-- 44_alu.md rule R163 (the zero divisor is the spec's decision D7): `mod` writes the remainder, the
unique one below the divisor, and raises OperandError(ModZero) for divisor 0. -/
def Obligations.ModIsTheRemainder : Prop :=
  ∀ (s : State) (d : RegIdx) (a b : Operand) (va vb : Lit), value s a = .ok va →
    value s b = .ok vb →
    (∀ q rem : Nat, va.toNat = q * vb.toNat + rem → rem < vb.toNat →
      WritesRegister (.mod (.reg d) a b) s d rem) ∧
    (vb.toNat = 0 → RaisesFault (.mod (.reg d) a b) s (.operandError .modZero 0))

/-- 44_alu.md rule R164, R165: bit `j` of the result of `and` (of `or`) is bit `j` of the first value
and (or) bit `j` of the second, for `j` from 0 to 14; nothing but the destination changes. -/
def Obligations.AndOrActBitByBit : Prop :=
  ∀ (s : State) (d : RegIdx) (a b : Operand) (va vb : Lit), value s a = .ok va →
    value s b = .ok vb →
    (∃ t, exec (.and (.reg d) a b) s = .next t ∧ t.outcome = .continued ∧
      ChangesOnly [.reg d, .outcome] s t ∧
      ∀ j, j < 15 → (t.getReg d).getLsbD j = (va.getLsbD j && vb.getLsbD j)) ∧
    (∃ t, exec (.or (.reg d) a b) s = .next t ∧ t.outcome = .continued ∧
      ChangesOnly [.reg d, .outcome] s t ∧
      ∀ j, j < 15 → (t.getReg d).getLsbD j = (va.getLsbD j || vb.getLsbD j))

/-- 44_alu.md rule R166: `not` writes the 15-bit complement, 32767 less the value. -/
def Obligations.NotIsThe15BitComplement : Prop :=
  ∀ (s : State) (d : RegIdx) (a : Operand) (va : Lit), value s a = .ok va →
    WritesRegister (.not (.reg d) a) s d (32767 - va.toNat)

/-- 44_alu.md rule R168 (a table that the spec derives from R160): the ALU's sum is bits 14 to 0 of
the 16-bit sum and its product bits 14 to 0 of the 30-bit product; complementing twice gives the value
back; a remainder lies below its divisor. -/
def Obligations.AluKeepsTheLow15Bits : Prop :=
  ∀ va vb : Lit,
    aluAdd va vb = (va.setWidth 16 + vb.setWidth 16).extractLsb' 0 15 ∧
    aluMult va vb = (va.setWidth 30 * vb.setWidth 30).extractLsb' 0 15 ∧
    aluNot (aluNot va) = va ∧
    (∀ r, aluMod va vb = some r → r.toNat < vb.toNat)

/-- 45_memory_access.md rule R180 (the non-literal case is the spec's decision D8): `rmem` writes the
literal in the addressed cell; it raises MemoryFault(Unwritten) on an unwritten cell and
OperandError(NonLiteralData) on a cell that holds no literal. -/
def Obligations.RmemLoadsALiteral : Prop :=
  ∀ (s : State) (d : RegIdx) (a : Operand) (va : Lit), value s a = .ok va →
    (∀ w, s.mem.cell va.toNat = some w → w.toNat ≤ 32767 →
      WritesRegister (.rmem (.reg d) a) s d w.toNat) ∧
    (s.mem.cell va.toNat = none →
      RaisesFault (.rmem (.reg d) a) s (.memoryFault .unwritten va.toNat)) ∧
    (∀ w, s.mem.cell va.toNat = some w → 32768 ≤ w.toNat →
      RaisesFault (.rmem (.reg d) a) s (.operandError .nonLiteralData w.toNat))

/-- 45_memory_access.md rule R181: `wmem a, b` stores the value of `b` in the cell whose address is
the value of `a`, written or not before, and leaves every other cell and every register as it was. -/
def Obligations.WmemStoresTheLiteral : Prop :=
  ∀ (s : State) (a b : Operand) (va vb : Lit), value s a = .ok va → value s b = .ok vb →
    ∃ t w, exec (.wmem a b) s = .next t ∧ t.mem.cell va.toNat = some w ∧
      w.toNat = vb.toNat ∧ t.outcome = .continued ∧
      ChangesOnly [.cell va.toNat, .outcome] s t

/-- 46_io.md rule R190: `out a` emits every code below 128 and raises OperandError(OutRange), emitting
nothing, for 128 or more. -/
def Obligations.OutEmitsBelow128 : Prop :=
  ∀ (s : State) (a : Operand) (va : Lit), value s a = .ok va →
    (va.toNat < 128 → ∃ t c, exec (.out a) s = .next t ∧ t.output = s.output ++ [c] ∧
      c.toNat = va.toNat ∧ t.outcome = .continued ∧ ChangesOnly [.output, .outcome] s t) ∧
    (128 ≤ va.toNat → RaisesFault (.out a) s (.operandError .outRange va.toNat))

/-- 46_io.md rule R191: `in r` moves the first input unit into the destination register, and halts the
machine with cause IOExhausted when no unit is left. -/
def Obligations.InTakesOneUnitOrHalts : Prop :=
  ∀ (s : State) (d : RegIdx),
    (∀ c rest, s.input = c :: rest → ∃ t, exec (.inp (.reg d)) s = .next t ∧ t.getReg d = c ∧
      t.input = rest ∧ t.outcome = .continued ∧ ChangesOnly [.reg d, .input, .outcome] s t) ∧
    (s.input = [] → HaltsWith (.inp (.reg d)) s .ioExhausted)

/-- 60_exceptions.md rule R203, R209 (the priority is the spec's decision D4, a literal destination
D26): every instruction with a destination operand that is no register raises
OperandError(BadDestination) with that operand word, before any other operand or check. -/
def Obligations.BadDestinationComesFirst : Prop :=
  ∀ (i : Instr) (r : Operand) (s : State), i.destination = some r → r.okDest = false →
    RaisesFault i s (.operandError .badDestination r.word.toNat)

/-- 60_exceptions.md rule R203, R209 (priority by D4): with a good destination, the first value operand
that is an invalid encoding raises OperandError(InvalidWord) with that word. -/
def Obligations.InvalidValueWordFaults : Prop :=
  ∀ (i : Instr) (w : Word) (s : State), (∀ r, i.destination = some r → r.okDest = true) →
    (i.operands.find? fun o => !o.okValue) = some (.invalid w) →
    RaisesFault i s (.operandError .invalidWord w.toNat)

/-! ### Two instruction rules whole, from fetch to outcome -/

/-- 41_move_stack.md rule R121, whole: the two words `[2, a]` at `pc`; the value of `a` becomes the
new top, `pc = A0 + 2`, outcome Continued, nothing else written; the only fault is the MemoryFault of
a fetch. -/
def Obligations.PushStepFromFetchToOutcome : Prop :=
  ∀ s : State, s.Inv → s.run = .running → memRead s.mem s.pc.toNat = .ok 2 →
    (∀ w, memRead s.mem (s.pc.toNat + 1) = .ok w →
      ∃ v t, value s (decodeOperand w) = .ok v ∧ step s = .next t ∧ t.stack = v :: s.stack ∧
        t.pc.toNat = s.pc.toNat + 2 ∧ t.outcome = .continued ∧
        ChangesOnly [.stack, .pc, .outcome, .cycles] s t) ∧
    (∀ f, memRead s.mem (s.pc.toNat + 1) = .error f →
      ∃ t c, step s = .next t ∧ t.outcome = .faulted f ∧ f = .memoryFault c (s.pc.toNat + 1))

/-- 43_jump_family.md rule R140, whole: the two words `[6, a]` at `pc`; `pc` becomes the value of `a`,
a literal or the content of a register, outcome Continued, nothing else written; the only fault is
the MemoryFault of a fetch; a jump to its own address leaves `pc` where it was. -/
def Obligations.JmpStepFromFetchToOutcome : Prop :=
  ∀ s : State, s.Inv → s.run = .running → memRead s.mem s.pc.toNat = .ok 6 →
    (∀ w, memRead s.mem (s.pc.toNat + 1) = .ok w →
      ∃ v t, value s (decodeOperand w) = .ok v ∧ step s = .next t ∧ t.pc.toNat = v.toNat ∧
        t.outcome = .continued ∧ ChangesOnly [.pc, .outcome, .cycles] s t ∧
        (v.toNat = s.pc.toNat → t.pc = s.pc)) ∧
    (∀ f, memRead s.mem (s.pc.toNat + 1) = .error f →
      ∃ t c, step s = .next t ∧ t.outcome = .faulted f ∧ f = .memoryFault c (s.pc.toNat + 1))

/-! ### The host -/

/-- 20_memory.md rule R44 (checks in order by decision D16, the initialisation by D21, the values 0 by
D2 and D3, log entries 3 and 4): `load` refuses
an image that is too long or holds a word of 32776 or more; otherwise cell `i` holds word `i`, every
other cell is unwritten, the image is kept, and the rest takes its reset values. -/
def Obligations.LoadFillsMemoryOrRefuses : Prop :=
  ∀ (ws : List Word) (s : State),
    (32768 < ws.length → load ws s = .error (.encodingError ws.length)) ∧
    (ws.length ≤ 32768 → (∃ w ∈ ws, 32776 ≤ w.toNat) →
      ∃ w ∈ ws, 32776 ≤ w.toNat ∧ load ws s = .error (.encodingError w.toNat)) ∧
    (ws.length ≤ 32768 → (∀ w ∈ ws, w.toNat ≤ 32775) →
      ∃ t, load ws s = .ok t ∧ (∀ a, t.mem.cell a = ws[a]?) ∧ t.program = ws ∧
        (∀ i, t.getReg i = 0) ∧ t.pc = 0 ∧ t.stack = [] ∧ t.run = .running)

/-- 70_reset_and_hazards.md rule R250, R254, 10_state.md rule R27: after any run of a loaded program,
`reset()` gives the loaded machine back, memory and all, except for the two streams and the debug
controller's state, which it does not touch. Choices it rests on: that `load` ends with the reset
initialisation is the spec's decision D21 (log entry 26), that reset leaves the streams its decision
D17, and that reset clears the last outcome and the record of the first fault the model's (log
entry 27). -/
def Obligations.ResetAfterAnyRunRestoresTheLoad : Prop :=
  ∀ (ws : List Word) (s s0 t : State), load ws s = .ok s0 → Reaches s0 t →
    hostReset t = { s0 with input := t.input, output := t.output, supervisor := t.supervisor }

/-- 60_exceptions.md rule R223, 10_state.md rule R30: every command of the debug controller, `run`
included, keeps the invariants, and a command that reports an error changes nothing. -/
def Obligations.CommandsKeepTheInvariant : Prop :=
  ∀ (fuel : Nat) (c : Command) (s : State), s.Inv →
    (execute fuel c s).1.Inv ∧
    (∀ e, (execute fuel c s).2 = .error e → (execute fuel c s).1 = s)

/-- 60_exceptions.md rule R226, 95_test_vectors.md S9: `dump` then `restore` reproduces `pc`, registers
and stack, on any machine, and leaves memory and all else there as it was. -/
def Obligations.DumpThenRestoreReproduces : Prop :=
  ∀ (s u : State) (n m : Nat), s.Inv → ∃ snap core t,
    execute n .dump s = (s, .dumped snap core) ∧ execute m (.restore snap) u = (t, .done) ∧
    t.pc = s.pc ∧ t.regs = s.regs ∧ t.stack = s.stack ∧
    (∀ p : Part, (∀ i, p ≠ .reg i) → p ∉ [.pc, .stack] → p.same u t)

/-- 60_exceptions.md rule R221, R225 (the count by decision D20), 95_test_vectors.md S8: a run of any
length stops with reason breakpoint as soon as one of its steps completes with `pc` at a breakpoint
address, however many steps came before, and it stops with that reason only there; a run that makes
all its steps was at no breakpoint after any of them, and counts them. -/
def Obligations.RunStopsAtBreakpoints : Prop :=
  (∀ (k n : Nat) (s u t : State), advance k s = (u, .cyclesDone) → step u = .next t →
    t.outcome = .continued → t.pc.toNat ∈ u.supervisor.breakpoints →
    advance (k + (n + 1)) s = (t, .stopped .breakpoint)) ∧
  (∀ (n : Nat) (s t : State), advance n s = (t, .stopped .breakpoint) →
    t.outcome = .continued ∧ t.pc.toNat ∈ t.supervisor.breakpoints) ∧
  (∀ (k n : Nat) (s t : State), 0 < k → k ≤ n → advance n s = (t, .cyclesDone) →
    ∃ u, advance k s = (u, .cyclesDone) ∧ u.pc.toNat ∉ u.supervisor.breakpoints) ∧
  (∀ (n : Nat) (s t : State), s.run = .running → advance n s = (t, .cyclesDone) →
    t.supervisor.cycles = s.supervisor.cycles + n)

/-- 30_encoding.md rule R84, 20_memory.md rule R48 (an odd byte count is refused by decision D22): word
`i` of an image is byte `2i` plus 256 times byte `2i + 1`; writing words out and reading them back
gives the words. -/
def Obligations.ImageBytesAreLittleEndian : Prop :=
  (∀ (bytes : List Byte) (ws : List Word), wordsOfBytes bytes = some ws →
    bytes.length = 2 * ws.length ∧ ∀ (i : Nat) (w : Word), ws[i]? = some w →
      ∃ lo hi, bytes[2 * i]? = some lo ∧ bytes[2 * i + 1]? = some hi ∧
        w.toNat = lo.toNat + 256 * hi.toNat) ∧
  (∀ bytes : List Byte, bytes.length % 2 = 1 → wordsOfBytes bytes = none) ∧
  (∀ ws : List Word, wordsOfBytes (bytesOfWords ws) = some ws)

/-- 70_reset_and_hazards.md rule R252, 10_state.md rule R23 (decisions D21, D15, D3): at power-on the
status view is all zeros, and the first step faults with MemoryFault(Unwritten, 0) at `pc = 0`. -/
def Obligations.PowerOnFirstStepFaults : Prop :=
  State.reset.statusView = { run := 0, haltCause := 0, lastFault := 0 } ∧
  ∃ t, step State.reset = .next t ∧ t.outcome = .faulted (.memoryFault .unwritten 0) ∧ t.pc = 0 ∧
    t.statusView = { run := 0, haltCause := 0, lastFault := 4 }
end

