-- ==== Sys2Proof/Laws/Decode.lean ====
section
/-! SUPPORT. The small laws of operand words and opcode words. -/

namespace Sys2Proof

/-- A register index is below 8, with the bound as a numeral. -/
theorem regIdx_lt (i : RegIdx) : i.val < 8 := i.isLt

/-- A word up to 32767 is a literal. -/
theorem decodeOperand_lit {w : Word} (h : w.toNat ≤ 32767) :
    decodeOperand w = .lit (w.setWidth 15) := by
  simp only [decodeOperand, h, if_true]

/-- A word 32768 + i is register i. -/
theorem decodeOperand_reg {w : Word} {i : RegIdx} (h : w.toNat = 32768 + i.val) :
    decodeOperand w = .reg i := by
  have hi := regIdx_lt i
  have h1 : ¬ w.toNat ≤ 32767 := by omega
  have h2 : w.toNat ≤ 32775 := by omega
  have h3 : w.toNat - 32768 = i.val := by omega
  rw [decodeOperand, if_neg h1, dif_pos h2]
  simp only [h3]

/-- A word of 32776 or more is an invalid encoding. -/
theorem decodeOperand_invalid {w : Word} (h : 32776 ≤ w.toNat) :
    decodeOperand w = .invalid w := by
  have h1 : ¬ w.toNat ≤ 32767 := by omega
  have h2 : ¬ w.toNat ≤ 32775 := by omega
  rw [decodeOperand, if_neg h1, dif_neg h2]

/-- Reading back the word of an operand class gives the class. -/
theorem decodeOperand_word {o : Operand} (h : o.isClass = true) : decodeOperand o.word = o := by
  cases o with
  | lit v =>
    have hv := v.isLt
    have hm : (v.setWidth 16 : Word).toNat = v.toNat := by
      rw [BitVec.toNat_setWidth]; omega
    rw [Operand.word, decodeOperand_lit (by omega)]
    congr 1
    apply BitVec.eq_of_toNat_eq
    rw [BitVec.toNat_setWidth, hm]
    omega
  | reg i =>
    have hi := regIdx_lt i
    exact decodeOperand_reg (by rw [Operand.word, BitVec.toNat_ofNat]; omega)
  | invalid w => exact decodeOperand_invalid (of_decide_eq_true h)

/-- The class of a word has that word. -/
theorem word_decodeOperand (w : Word) : (decodeOperand w).word = w := by
  unfold decodeOperand
  split
  · apply BitVec.eq_of_toNat_eq
    simp only [Operand.word, BitVec.toNat_setWidth]
    omega
  · split
    · apply BitVec.eq_of_toNat_eq
      simp only [Operand.word, BitVec.toNat_ofNat]
      omega
    · rfl

/-- The class of a word is a class. -/
theorem isClass_decodeOperand (w : Word) : (decodeOperand w).isClass = true := by
  unfold decodeOperand
  split
  · rfl
  · split
    · rfl
    · simp only [Operand.isClass, decide_eq_true_eq]; omega

/-- The opcode word of an opcode selects it. -/
theorem Opcode.ofWord_word (op : Opcode) : Opcode.ofWord op.word = some op := by
  cases op <;> decide

/-- A word that selects an opcode is its opcode word. -/
theorem Opcode.id_of_ofWord {w : Word} {op : Opcode} (h : Opcode.ofWord w = some op) :
    w.toNat = op.id := by
  unfold Opcode.ofWord at h
  split at h <;> simp_all [Opcode.id] <;> (subst h; simp_all)

/-- The table has NUM_OPCODES opcodes, and their ids in table order are 0 to NUM_OPCODES - 1. -/
theorem Opcode.ids_all : Opcode.all.map Opcode.id = List.range Config.numOpcodes := by decide

/-- No opcode has more than MAX_OPERANDS operand words. -/
theorem Opcode.operandCount_le (op : Opcode) : op.operandCount ≤ Config.maxOperands := by
  cases op <;> decide

/-- Assembling an opcode gives an instruction of that opcode. -/
theorem Opcode.opcode_assemble (op : Opcode) (ws : List Word) : (op.assemble ws).opcode = op := by
  cases op <;> rfl

end Sys2Proof
end

