-- ==== Sys2Proof/Laws/Memory.lean ====
section
/-! SUPPORT. The laws of memory: read after write, and that every operation keeps the canonical form
and legal words. -/

namespace Sys2Proof.Machine

/-! ### Read after write -/

@[simp] theorem Memory.cell_put_same (m : Memory) (a : Nat) (w : Word) :
    (m.put a w).cell a = some w := by
  induction m with
  | nil => simp [Memory.put, Memory.cell]
  | cons c rest ih =>
    obtain ⟨b, v⟩ := c
    simp only [Memory.put]
    split
    · simp [Memory.cell]
    · split
      · simp [Memory.cell]
      · simp [Memory.cell, *]

theorem Memory.cell_put_ne (m : Memory) {a b : Nat} (w : Word) (h : b ≠ a) :
    (m.put a w).cell b = m.cell b := by
  induction m with
  | nil => simp [Memory.put, Memory.cell, h]
  | cons c rest ih =>
    obtain ⟨x, v⟩ := c
    simp only [Memory.put]
    split
    · simp [Memory.cell, h]
    · split
      · next he => subst he; simp [Memory.cell, h]
      · simp [Memory.cell, ih]

/-! ### The canonical form -/

theorem Memory.risingAbove_mono {lo lo' : Nat} {m : Memory} (h : lo' ≤ lo)
    (hm : m.risingAbove lo = true) : m.risingAbove lo' = true := by
  cases m with
  | nil => rfl
  | cons c rest =>
    obtain ⟨a, v⟩ := c
    simp only [Memory.risingAbove, Bool.and_eq_true, decide_eq_true_eq] at hm ⊢
    exact ⟨by omega, hm.2⟩

theorem Memory.risingAbove_put {lo a : Nat} {m : Memory} (w : Word) (h : lo < a)
    (hm : m.risingAbove lo = true) : (m.put a w).risingAbove lo = true := by
  induction m generalizing lo with
  | nil => simp [Memory.put, Memory.risingAbove, h]
  | cons c rest ih =>
    obtain ⟨b, v⟩ := c
    simp only [Memory.risingAbove, Bool.and_eq_true, decide_eq_true_eq] at hm
    simp only [Memory.put]
    split
    · simp [Memory.risingAbove, hm.2, *]
    · split
      · next he => subst he; simp [Memory.risingAbove, h, hm.2]
      · simp only [Memory.risingAbove, Bool.and_eq_true, decide_eq_true_eq]
        exact ⟨hm.1, ih (by omega) hm.2⟩

theorem Memory.rising_put {m : Memory} (a : Nat) (w : Word) (hm : m.rising = true) :
    (m.put a w).rising = true := by
  cases m with
  | nil => rfl
  | cons c rest =>
    obtain ⟨b, v⟩ := c
    simp only [Memory.rising] at hm
    simp only [Memory.put]
    split
    · simp [Memory.rising, Memory.risingAbove, *]
    · split
      · next he => subst he; simpa [Memory.rising] using hm
      · simp only [Memory.rising]
        exact Memory.risingAbove_put w (by omega) hm

theorem Memory.all_put {m : Memory} (p : Cell → Bool) (a : Nat) (w : Word) (hm : m.all p = true)
    (hp : p (a, w) = true) : (m.put a w).all p = true := by
  induction m with
  | nil => simp [Memory.put, hp]
  | cons c rest ih =>
    obtain ⟨b, v⟩ := c
    simp only [List.all_cons, Bool.and_eq_true] at hm
    simp only [Memory.put]
    split
    · simp only [List.all_cons, hp, hm.1, hm.2, Bool.and_self]
    · split
      · simp only [List.all_cons, hp, hm.2, Bool.and_self]
      · simp only [List.all_cons, hm.1, ih hm.2, Bool.and_self]

/-- A store at an address of the space keeps the canonical form. -/
theorem Memory.wf_put {m : Memory} {a : Nat} (w : Word) (ha : a < 32768) (hm : m.wf = true) :
    (m.put a w).wf = true := by
  simp only [Memory.wf, Bool.and_eq_true] at hm ⊢
  exact ⟨Memory.rising_put a w hm.1, Memory.all_put _ a w hm.2 (by simpa using ha)⟩

/-- A store of a legal word keeps every word legal. -/
theorem Memory.legal_put {m : Memory} (a : Nat) {w : Word} (hw : w.toNat ≤ 32775)
    (hm : m.legal = true) : (m.put a w).legal = true :=
  Memory.all_put _ a w hm (by simpa using hw)

theorem Memory.mem_of_cell {m : Memory} {a : Nat} {w : Word} (h : m.cell a = some w) :
    (a, w) ∈ m := by
  induction m with
  | nil => simp [Memory.cell] at h
  | cons c rest ih =>
    obtain ⟨b, v⟩ := c
    simp only [Memory.cell] at h
    split at h
    · next he => subst he; simp_all
    · exact List.mem_cons_of_mem _ (ih h)

/-- A written cell of a canonical memory is in the address space. -/
theorem Memory.wf_addr {m : Memory} {a : Nat} {w : Word} (hm : m.wf = true)
    (h : m.cell a = some w) : a < 32768 := by
  simp only [Memory.wf, Bool.and_eq_true, List.all_eq_true] at hm
  simpa using hm.2 _ (Memory.mem_of_cell h)

/-- A written cell of a legal memory holds a legal word. -/
theorem Memory.legal_word {m : Memory} {a : Nat} {w : Word} (hm : m.legal = true)
    (h : m.cell a = some w) : w.toNat ≤ 32775 := by
  simp only [Memory.legal, List.all_eq_true] at hm
  simpa using hm _ (Memory.mem_of_cell h)

theorem Memory.cell_below {lo a : Nat} {m : Memory} (hm : m.risingAbove lo = true) (h : a ≤ lo) :
    m.cell a = none := by
  induction m generalizing lo with
  | nil => rfl
  | cons c rest ih =>
    obtain ⟨b, v⟩ := c
    simp only [Memory.risingAbove, Bool.and_eq_true, decide_eq_true_eq] at hm
    have : a ≠ b := by omega
    simp only [Memory.cell, this, if_false]
    exact ih hm.2 (by omega)

theorem Memory.ext_above {lo : Nat} {m n : Memory} (hm : m.risingAbove lo = true)
    (hn : n.risingAbove lo = true) (h : ∀ a, m.cell a = n.cell a) : m = n := by
  induction m generalizing lo n with
  | nil =>
    cases n with
    | nil => rfl
    | cons c rest =>
      have := h c.1
      simp [Memory.cell] at this
  | cons c rest ih =>
    obtain ⟨a, v⟩ := c
    cases n with
    | nil =>
      have := h a
      simp [Memory.cell] at this
    | cons d rest' =>
      obtain ⟨b, u⟩ := d
      simp only [Memory.risingAbove, Bool.and_eq_true, decide_eq_true_eq] at hm hn
      have hab : a = b := by
        rcases Nat.lt_trichotomy a b with hlt | heq | hgt
        · have h1 := h a
          have h2 : Memory.cell rest' a = none := Memory.cell_below hn.2 (by omega)
          have h3 : a ≠ b := by omega
          simp [Memory.cell, h3, h2] at h1
        · exact heq
        · have h1 := h b
          have h2 : Memory.cell rest b = none := Memory.cell_below hm.2 (by omega)
          have h3 : b ≠ a := by omega
          simp [Memory.cell, h3, h2] at h1
      subst hab
      have hv : v = u := by simpa [Memory.cell] using h a
      subst hv
      congr 1
      refine ih hm.2 hn.2 fun x => ?_
      by_cases hx : x = a
      · subst hx
        rw [Memory.cell_below hm.2 (Nat.le_refl _), Memory.cell_below hn.2 (Nat.le_refl _)]
      · simpa [Memory.cell, hx] using h x

/-- Canonical memories with the same cells are the same list. -/
theorem Memory.ext_of_wf {m n : Memory} (hm : m.wf = true) (hn : n.wf = true)
    (h : ∀ a, m.cell a = n.cell a) : m = n := by
  simp only [Memory.wf, Bool.and_eq_true] at hm hn
  cases m with
  | nil =>
    cases n with
    | nil => rfl
    | cons c rest => simpa [Memory.cell] using h c.1
  | cons c rest =>
    cases n with
    | nil => simpa [Memory.cell] using h c.1
    | cons d rest' =>
      obtain ⟨a, v⟩ := c
      obtain ⟨b, u⟩ := d
      have hab : a = b := by
        rcases Nat.lt_trichotomy a b with hlt | heq | hgt
        · have h1 := h a
          have h2 : Memory.cell rest' a = none := Memory.cell_below hn.1 (by omega)
          have h3 : a ≠ b := by omega
          simp [Memory.cell, h3, h2] at h1
        · exact heq
        · have h1 := h b
          have h2 : Memory.cell rest b = none := Memory.cell_below hm.1 (by omega)
          have h3 : b ≠ a := by omega
          simp [Memory.cell, h3, h2] at h1
      subst hab
      have hv : v = u := by simpa [Memory.cell] using h a
      subst hv
      congr 1
      refine Memory.ext_above hm.1 hn.1 fun x => ?_
      by_cases hx : x = a
      · subst hx
        rw [Memory.cell_below hm.1 (Nat.le_refl _), Memory.cell_below hn.1 (Nat.le_refl _)]
      · simpa [Memory.cell, hx] using h x

/-! ### A loaded image -/

theorem Memory.risingAbove_ofWordsFrom (ws : List Word) {lo a : Nat} (h : lo < a) :
    (Memory.ofWordsFrom a ws).risingAbove lo = true := by
  induction ws generalizing lo a with
  | nil => rfl
  | cons w ws ih => simp [Memory.ofWordsFrom, Memory.risingAbove, h, ih (Nat.lt_succ_self a)]

theorem Memory.rising_ofWords (ws : List Word) : (Memory.ofWords ws).rising = true := by
  cases ws with
  | nil => rfl
  | cons w ws => exact Memory.risingAbove_ofWordsFrom ws (Nat.lt_succ_self 0)

theorem Memory.cell_ofWordsFrom (ws : List Word) (a b : Nat) :
    (Memory.ofWordsFrom a ws).cell b = if b < a then none else ws[b - a]? := by
  induction ws generalizing a with
  | nil => simp [Memory.ofWordsFrom, Memory.cell]
  | cons w ws ih =>
    simp only [Memory.ofWordsFrom, Memory.cell, ih]
    by_cases hb : b = a
    · subst hb; simp
    · by_cases hlt : b < a
      · simp [hb, hlt, Nat.lt_succ_of_lt hlt]
      · have h1 : ¬ b < a + 1 := by omega
        have h2 : b - a = (b - (a + 1)) + 1 := by omega
        simp only [hb, hlt, h1, if_false]
        rw [h2, List.getElem?_cons_succ]

/-- Cell `i` of a loaded memory holds word `i`; every cell beyond the image is unwritten. -/
theorem Memory.cell_ofWords (ws : List Word) (a : Nat) :
    (Memory.ofWords ws).cell a = ws[a]? := by
  simp [Memory.ofWords, Memory.cell_ofWordsFrom]

theorem Memory.addr_ofWordsFrom {ws : List Word} {a : Nat} {c : Cell}
    (h : c ∈ Memory.ofWordsFrom a ws) : c.1 < a + ws.length ∧ c.2 ∈ ws := by
  induction ws generalizing a with
  | nil => simp [Memory.ofWordsFrom] at h
  | cons w ws ih =>
    simp only [Memory.ofWordsFrom, List.mem_cons] at h
    rcases h with rfl | h
    · simp
    · obtain ⟨h1, h2⟩ := ih h
      exact ⟨by simp only [List.length_cons]; omega, List.mem_cons_of_mem _ h2⟩

/-- A memory filled from a legal image is canonical. -/
theorem Memory.wf_ofWords {ws : List Word} (h : ws.length ≤ 32768) :
    (Memory.ofWords ws).wf = true := by
  simp only [Memory.wf, Bool.and_eq_true, Memory.rising_ofWords, true_and, List.all_eq_true,
    decide_eq_true_eq]
  intro c hc
  have := (Memory.addr_ofWordsFrom hc).1
  omega

/-- A memory filled from legal words holds legal words. -/
theorem Memory.legal_ofWords {ws : List Word} (h : ∀ w ∈ ws, w.toNat ≤ 32775) :
    (Memory.ofWords ws).legal = true := by
  simp only [Memory.legal, List.all_eq_true, decide_eq_true_eq]
  intro c hc
  exact h _ (Memory.addr_ofWordsFrom hc).2

/-- The memory of the reset state is canonical. -/
theorem Memory.wf_reset : State.reset.mem.wf = true := by decide

/-! ### The access primitives -/

/-- MemRead outside the address space. -/
theorem memRead_outOfRange {m : Memory} {a : Nat} (h : 32768 ≤ a) :
    memRead m a = .error (.memoryFault .outOfRange a) := if_pos h

/-- MemRead inside the address space is decided by the cell. -/
theorem memRead_inRange {m : Memory} {a : Nat} (h : a < 32768) :
    memRead m a = match m.cell a with
      | none => .error (.memoryFault .unwritten a)
      | some w => .ok w := if_neg (Nat.not_le.2 h)

/-- Everything a successful MemRead says. -/
theorem memRead_ok {m : Memory} {a : Nat} {w : Word} :
    memRead m a = .ok w ↔ a < 32768 ∧ m.cell a = some w := by
  rcases Nat.lt_or_ge a 32768 with h | h
  · rw [memRead_inRange h]
    cases m.cell a <;> simp [h]
  · rw [memRead_outOfRange h]
    simp [Nat.not_lt.2 h]

/-- Everything a failing MemRead says. -/
theorem memRead_error {m : Memory} {a : Nat} {f : Fault} :
    memRead m a = .error f ↔
      (32768 ≤ a ∧ f = .memoryFault .outOfRange a) ∨
      (a < 32768 ∧ m.cell a = none ∧ f = .memoryFault .unwritten a) := by
  rcases Nat.lt_or_ge a 32768 with h | h
  · rw [memRead_inRange h]
    cases m.cell a <;> simp [h, Nat.not_le.2 h, eq_comm]
  · rw [memRead_outOfRange h]
    simp [h, Nat.not_lt.2 h, eq_comm]

/-- A MemWrite of a legal word in the space succeeds. -/
theorem memWrite_legal {m : Memory} {a n : Nat} (hn : n ≤ 32775) (ha : a < 32768) :
    memWrite m a n = .ok (m.put a (BitVec.ofNat 16 n)) := by
  rw [memWrite, if_neg (Nat.not_lt.2 hn), if_neg (Nat.not_le.2 ha)]

/-- Everything a successful MemWrite says. -/
theorem memWrite_ok {m m' : Memory} {a n : Nat} (h : memWrite m a n = .ok m') :
    n ≤ 32775 ∧ a < 32768 ∧ m' = m.put a (BitVec.ofNat 16 n) := by
  unfold memWrite at h
  split at h
  · cases h
  · next h1 =>
    split at h
    · cases h
    · next h2 =>
      cases h
      exact ⟨Nat.not_lt.1 h1, Nat.not_le.1 h2, rfl⟩

/-- Every MemWrite keeps the canonical form and legal words. -/
theorem memWrite_keeps {m m' : Memory} {a n : Nat} (h : memWrite m a n = .ok m') :
    (m.wf = true → m'.wf = true) ∧ (m.legal = true → m'.legal = true) := by
  obtain ⟨hn, ha, rfl⟩ := memWrite_ok h
  have hw : (BitVec.ofNat 16 n).toNat ≤ 32775 := by
    rw [BitVec.toNat_ofNat]; omega
  exact ⟨Memory.wf_put _ ha, Memory.legal_put a hw⟩

/-- Placing words for the next fetch keeps the canonical form. -/
theorem Memory.wf_putWords {m : Memory} (a : Nat) (ws : List Word) (hm : m.wf = true) :
    (m.putWords a ws).wf = true := by
  induction ws generalizing m a with
  | nil => exact hm
  | cons w ws ih =>
    simp only [Memory.putWords]
    apply ih
    split
    · next h => exact Memory.wf_put w (by simpa using h) hm
    · exact hm

end Sys2Proof.Machine
end

