-- ==== Sys2Proof/Laws/State.lean ====
section
/-! SUPPORT. One lemma per field per update of the state, true by rfl, so that no later proof unfolds
a record update; and the register file's read after write. -/

namespace Sys2Proof.Machine

/-! ### `setReg` -/

@[simp] theorem State.setReg_regs (s : State) (i : RegIdx) (v : Lit) : (s.setReg i v).regs = s.regs.set i v := rfl
@[simp] theorem State.setReg_pc (s : State) (i : RegIdx) (v : Lit) : (s.setReg i v).pc = s.pc := rfl
@[simp] theorem State.setReg_stack (s : State) (i : RegIdx) (v : Lit) : (s.setReg i v).stack = s.stack := rfl
@[simp] theorem State.setReg_mem (s : State) (i : RegIdx) (v : Lit) : (s.setReg i v).mem = s.mem := rfl
@[simp] theorem State.setReg_run (s : State) (i : RegIdx) (v : Lit) : (s.setReg i v).run = s.run := rfl
@[simp] theorem State.setReg_input (s : State) (i : RegIdx) (v : Lit) : (s.setReg i v).input = s.input := rfl
@[simp] theorem State.setReg_output (s : State) (i : RegIdx) (v : Lit) : (s.setReg i v).output = s.output := rfl
@[simp] theorem State.setReg_program (s : State) (i : RegIdx) (v : Lit) : (s.setReg i v).program = s.program := rfl
@[simp] theorem State.setReg_outcome (s : State) (i : RegIdx) (v : Lit) : (s.setReg i v).outcome = s.outcome := rfl
@[simp] theorem State.setReg_firstFault (s : State) (i : RegIdx) (v : Lit) : (s.setReg i v).firstFault = s.firstFault := rfl
@[simp] theorem State.setReg_supervisor (s : State) (i : RegIdx) (v : Lit) : (s.setReg i v).supervisor = s.supervisor := rfl

/-! ### `push` -/

@[simp] theorem State.push_regs (s : State) (v : Lit) : (s.push v).regs = s.regs := rfl
@[simp] theorem State.push_pc (s : State) (v : Lit) : (s.push v).pc = s.pc := rfl
@[simp] theorem State.push_stack (s : State) (v : Lit) : (s.push v).stack = v :: s.stack := rfl
@[simp] theorem State.push_mem (s : State) (v : Lit) : (s.push v).mem = s.mem := rfl
@[simp] theorem State.push_run (s : State) (v : Lit) : (s.push v).run = s.run := rfl
@[simp] theorem State.push_input (s : State) (v : Lit) : (s.push v).input = s.input := rfl
@[simp] theorem State.push_output (s : State) (v : Lit) : (s.push v).output = s.output := rfl
@[simp] theorem State.push_program (s : State) (v : Lit) : (s.push v).program = s.program := rfl
@[simp] theorem State.push_outcome (s : State) (v : Lit) : (s.push v).outcome = s.outcome := rfl
@[simp] theorem State.push_firstFault (s : State) (v : Lit) : (s.push v).firstFault = s.firstFault := rfl
@[simp] theorem State.push_supervisor (s : State) (v : Lit) : (s.push v).supervisor = s.supervisor := rfl

/-! ### `jump` -/

@[simp] theorem State.jump_regs (s : State) (v : Lit) : (s.jump v).regs = s.regs := rfl
@[simp] theorem State.jump_pc (s : State) (v : Lit) : (s.jump v).pc = v.setWidth 16 := rfl
@[simp] theorem State.jump_stack (s : State) (v : Lit) : (s.jump v).stack = s.stack := rfl
@[simp] theorem State.jump_mem (s : State) (v : Lit) : (s.jump v).mem = s.mem := rfl
@[simp] theorem State.jump_run (s : State) (v : Lit) : (s.jump v).run = s.run := rfl
@[simp] theorem State.jump_input (s : State) (v : Lit) : (s.jump v).input = s.input := rfl
@[simp] theorem State.jump_output (s : State) (v : Lit) : (s.jump v).output = s.output := rfl
@[simp] theorem State.jump_program (s : State) (v : Lit) : (s.jump v).program = s.program := rfl
@[simp] theorem State.jump_outcome (s : State) (v : Lit) : (s.jump v).outcome = s.outcome := rfl
@[simp] theorem State.jump_firstFault (s : State) (v : Lit) : (s.jump v).firstFault = s.firstFault := rfl
@[simp] theorem State.jump_supervisor (s : State) (v : Lit) : (s.jump v).supervisor = s.supervisor := rfl

/-! ### `emit` -/

@[simp] theorem State.emit_regs (s : State) (c : Code) : (s.emit c).regs = s.regs := rfl
@[simp] theorem State.emit_pc (s : State) (c : Code) : (s.emit c).pc = s.pc := rfl
@[simp] theorem State.emit_stack (s : State) (c : Code) : (s.emit c).stack = s.stack := rfl
@[simp] theorem State.emit_mem (s : State) (c : Code) : (s.emit c).mem = s.mem := rfl
@[simp] theorem State.emit_run (s : State) (c : Code) : (s.emit c).run = s.run := rfl
@[simp] theorem State.emit_input (s : State) (c : Code) : (s.emit c).input = s.input := rfl
@[simp] theorem State.emit_output (s : State) (c : Code) : (s.emit c).output = s.output ++ [c] := rfl
@[simp] theorem State.emit_program (s : State) (c : Code) : (s.emit c).program = s.program := rfl
@[simp] theorem State.emit_outcome (s : State) (c : Code) : (s.emit c).outcome = s.outcome := rfl
@[simp] theorem State.emit_firstFault (s : State) (c : Code) : (s.emit c).firstFault = s.firstFault := rfl
@[simp] theorem State.emit_supervisor (s : State) (c : Code) : (s.emit c).supervisor = s.supervisor := rfl

/-! ### `countStep` -/

@[simp] theorem State.countStep_regs (s : State) : (s.countStep).regs = s.regs := rfl
@[simp] theorem State.countStep_pc (s : State) : (s.countStep).pc = s.pc := rfl
@[simp] theorem State.countStep_stack (s : State) : (s.countStep).stack = s.stack := rfl
@[simp] theorem State.countStep_mem (s : State) : (s.countStep).mem = s.mem := rfl
@[simp] theorem State.countStep_run (s : State) : (s.countStep).run = s.run := rfl
@[simp] theorem State.countStep_input (s : State) : (s.countStep).input = s.input := rfl
@[simp] theorem State.countStep_output (s : State) : (s.countStep).output = s.output := rfl
@[simp] theorem State.countStep_program (s : State) : (s.countStep).program = s.program := rfl
@[simp] theorem State.countStep_outcome (s : State) : (s.countStep).outcome = s.outcome := rfl
@[simp] theorem State.countStep_firstFault (s : State) : (s.countStep).firstFault = s.firstFault := rfl
@[simp] theorem State.countStep_supervisor (s : State) : (s.countStep).supervisor = { s.supervisor with cycles := s.supervisor.cycles + 1 } := rfl

/-! ### `fetched` -/

@[simp] theorem State.fetched_regs (s : State) (n : Nat) : (s.fetched n).regs = s.regs := rfl
@[simp] theorem State.fetched_pc (s : State) (n : Nat) : (s.fetched n).pc = s.pc + BitVec.ofNat 16 n := rfl
@[simp] theorem State.fetched_stack (s : State) (n : Nat) : (s.fetched n).stack = s.stack := rfl
@[simp] theorem State.fetched_mem (s : State) (n : Nat) : (s.fetched n).mem = s.mem := rfl
@[simp] theorem State.fetched_run (s : State) (n : Nat) : (s.fetched n).run = s.run := rfl
@[simp] theorem State.fetched_input (s : State) (n : Nat) : (s.fetched n).input = s.input := rfl
@[simp] theorem State.fetched_output (s : State) (n : Nat) : (s.fetched n).output = s.output := rfl
@[simp] theorem State.fetched_program (s : State) (n : Nat) : (s.fetched n).program = s.program := rfl
@[simp] theorem State.fetched_outcome (s : State) (n : Nat) : (s.fetched n).outcome = s.outcome := rfl
@[simp] theorem State.fetched_firstFault (s : State) (n : Nat) : (s.fetched n).firstFault = s.firstFault := rfl
@[simp] theorem State.fetched_supervisor (s : State) (n : Nat) : (s.fetched n).supervisor = { s.supervisor with cycles := s.supervisor.cycles + 1 } := rfl

/-! ### Register reads -/

@[simp] theorem State.getReg_setReg_same (s : State) (i : RegIdx) (v : Lit) :
    (s.setReg i v).getReg i = v := by
  simp [State.getReg, State.setReg]

theorem State.getReg_setReg_ne (s : State) {i j : RegIdx} (v : Lit) (h : j ≠ i) :
    (s.setReg i v).getReg j = s.getReg j := by
  have h' : (i : Nat) ≠ j := fun e => h (Fin.ext e.symm)
  simp [State.getReg, State.setReg, h']

/-- A register read depends on the register file only. -/
theorem State.getReg_congr {s t : State} (h : t.regs = s.regs) (i : RegIdx) :
    t.getReg i = s.getReg i := by
  simp [State.getReg, h]

/-- Two states with the same register reads have the same register file. -/
theorem State.regs_ext {s t : State} (h : ∀ i, t.getReg i = s.getReg i) : t.regs = s.regs := by
  apply Vector.ext
  intro k hk
  exact h ⟨k, hk⟩

/-! ### Reset -/

@[simp] theorem State.resetWith_mem (r : Vector Lit Config.nregs) (p : List Word) (i : List Lit)
    (o : List Code) (d : Debug) : (State.resetWith r p i o d).mem = Memory.ofWords p := rfl

@[simp] theorem State.resetWith_program (r : Vector Lit Config.nregs) (p : List Word) (i : List Lit)
    (o : List Code) (d : Debug) : (State.resetWith r p i o d).program = p := rfl

@[simp] theorem State.resetWith_run (r : Vector Lit Config.nregs) (p : List Word) (i : List Lit)
    (o : List Code) (d : Debug) : (State.resetWith r p i o d).run = .running := rfl

@[simp] theorem State.resetWith_outcome (r : Vector Lit Config.nregs) (p : List Word) (i : List Lit)
    (o : List Code) (d : Debug) : (State.resetWith r p i o d).outcome = .continued := rfl

/-! ### Frames -/

/-- A frame may list more parts than it needs. -/
theorem ChangesOnly.mono {ps qs : List Part} {s t : State} (h : ChangesOnly ps s t)
    (hsub : ∀ p ∈ ps, p ∈ qs) : ChangesOnly qs s t :=
  fun p hp => h p fun hm => hp (hsub p hm)

/-- Every part of a state is the same as itself. -/
@[simp] theorem Part.same_refl (p : Part) (s : State) : p.same s s := by
  cases p <;> rfl

/-- Frames compose: what neither step changes is unchanged by both. -/
theorem ChangesOnly.trans {ps qs : List Part} {s t u : State} (h : ChangesOnly ps s t)
    (k : ChangesOnly qs t u) : ChangesOnly (ps ++ qs) s u := by
  intro p hp
  have h1 := h p fun hm => hp (List.mem_append_left _ hm)
  have h2 := k p fun hm => hp (List.mem_append_right _ hm)
  cases p <;> exact h2.trans h1

end Sys2Proof.Machine
end

