-- ==== Sys2Proof/Laws/Ops.lean ====
section
/-! SUPPORT. For each shared operation, one lemma that says everything it can do; proofs cite these
instead of unfolding the operation. -/

namespace Sys2Proof.Machine

/-! ### The ends of a step -/

theorem complete_eq (s : State) : complete s = .next { s with outcome := .continued } := rfl

theorem raise_eq (f : Fault) (s : State) :
    raise f s = .next { s with outcome := .faulted f, firstFault := s.firstFault.or (some f) } := rfl

theorem haltMachine_eq (c : HaltCause) (s : State) :
    haltMachine c s = .next { s with run := .halted c, outcome := .halted } := rfl

@[simp] theorem orRaise_ok {α : Type} (s : State) (v : α) (k : α → Result) :
    orRaise s (.ok v) k = k v := rfl

@[simp] theorem orRaise_error {α : Type} (s : State) (f : Fault) (k : α → Result) :
    orRaise s (.error f) k = raise f s := rfl

@[simp] theorem orHalt_some {α : Type} (c : HaltCause) (s : State) (v : α) (k : α → Result) :
    orHalt c s (some v) k = k v := rfl

@[simp] theorem orHalt_none {α : Type} (c : HaltCause) (s : State) (k : α → Result) :
    orHalt c s none k = haltMachine c s := rfl

/-! ### The remainder -/

theorem remainder_zero (va : Lit) {vb : Lit} (h : vb.toNat = 0) :
    remainder va vb = .error (.operandError .modZero 0) := by
  simp only [remainder, aluMod, h, if_true]

theorem remainder_pos (va : Lit) {vb : Lit} (h : ¬ vb.toNat = 0) :
    remainder va vb = .ok (narrow (va.toNat % vb.toNat)) := by
  simp only [remainder, aluMod, h, if_false]

/-! ### Stack and input -/

theorem State.pop_nil {s : State} (h : s.stack = []) : s.pop = .error .stackUnderflow := by
  simp [State.pop, h]

theorem State.pop_cons {s : State} {v : Lit} {rest : List Lit} (h : s.stack = v :: rest) :
    s.pop = .ok (v, { s with stack := rest }) := by
  simp [State.pop, h]

theorem State.takeInput_nil {s : State} (h : s.input = []) : s.takeInput = none := by
  simp [State.takeInput, h]

theorem State.takeInput_cons {s : State} {c : Lit} {rest : List Lit} (h : s.input = c :: rest) :
    s.takeInput = some (c, { s with input := rest }) := by
  simp [State.takeInput, h]

/-! ### Operands -/

@[simp] theorem value_lit (s : State) (v : Lit) : value s (.lit v) = .ok v := rfl

@[simp] theorem value_reg (s : State) (i : RegIdx) : value s (.reg i) = .ok (s.getReg i) := rfl

@[simp] theorem dest_reg (i : RegIdx) : dest (.reg i) = .ok i := rfl

/-- A value depends on the registers only. -/
theorem value_congr {s t : State} (h : t.regs = s.regs) (a : Operand) : value t a = value s a := by
  cases a <;> simp [value, State.getReg, h]

/-- Everything a failing `value` says: the operand is an invalid encoding. -/
theorem value_error {s : State} {a : Operand} {f : Fault} (h : value s a = .error f) :
    ∃ w, a = .invalid w ∧ f = .operandError .invalidWord w.toNat := by
  cases a with
  | lit v => cases h
  | reg i => cases h
  | invalid w => exact ⟨w, rfl, by simpa [value] using h.symm⟩

/-- A value operand has a value exactly when its word is legal. -/
theorem value_ok_iff (s : State) (a : Operand) : (∃ v, value s a = .ok v) ↔ a.okValue = true := by
  cases a <;> simp [value, Operand.okValue]

/-- Everything a successful `dest` says: the operand is that register. -/
theorem dest_ok {r : Operand} {d : RegIdx} (h : dest r = .ok d) : r = .reg d := by
  cases r with
  | reg i => simpa [dest] using h
  | lit v => cases h
  | invalid w => cases h

/-- Everything a failing `dest` says: the operand is no register, and its word is recorded. -/
theorem dest_error {r : Operand} {f : Fault} (h : dest r = .error f) :
    r.okDest = false ∧ f = .operandError .badDestination r.word.toNat := by
  cases r with
  | reg i => cases h
  | lit v =>
    have hv : v.toNat % 65536 = v.toNat := Nat.mod_eq_of_lt (by have := v.isLt; omega)
    refine ⟨rfl, ?_⟩
    simp only [dest, Except.error.injEq] at h
    simp [Operand.word, hv, ← h]
  | invalid w => exact ⟨rfl, by simpa [dest, Operand.word] using h.symm⟩

/-- Everything format V's resolution can do. -/
theorem resolveV_cases (s : State) (a : Operand) (k : Lit → Result) :
    (∃ w, a = .invalid w ∧ resolveV s a k = raise (.operandError .invalidWord w.toNat) s) ∨
    (∃ va, value s a = .ok va ∧ resolveV s a k = k va) := by
  cases h : value s a with
  | ok va => exact .inr ⟨va, rfl, by simp [resolveV, h]⟩
  | error f =>
    obtain ⟨w, rfl, rfl⟩ := value_error h
    exact .inl ⟨w, rfl, by simp [resolveV, h]⟩

/-- Everything format D's resolution can do. -/
theorem resolveD_cases (s : State) (r : Operand) (k : RegIdx → Result) :
    (r.okDest = false ∧
      resolveD s r k = raise (.operandError .badDestination r.word.toNat) s) ∨
    (∃ d, r = .reg d ∧ resolveD s r k = k d) := by
  cases h : dest r with
  | ok d => exact .inr ⟨d, dest_ok h, by simp [resolveD, h]⟩
  | error f =>
    obtain ⟨hr, rfl⟩ := dest_error h
    exact .inl ⟨hr, by simp [resolveD, h]⟩

/-- Everything format DV's resolution can do. -/
theorem resolveDV_cases (s : State) (r a : Operand) (k : RegIdx → Lit → Result) :
    (r.okDest = false ∧
      resolveDV s r a k = raise (.operandError .badDestination r.word.toNat) s) ∨
    (∃ w, r.okDest = true ∧ a = .invalid w ∧
      resolveDV s r a k = raise (.operandError .invalidWord w.toNat) s) ∨
    (∃ d va, r = .reg d ∧ value s a = .ok va ∧ resolveDV s r a k = k d va) := by
  rcases resolveD_cases s r fun d => resolveV s a fun va => k d va with ⟨hr, h⟩ | ⟨d, rfl, h⟩
  · exact .inl ⟨hr, h⟩
  · rcases resolveV_cases s a fun va => k d va with ⟨w, rfl, h'⟩ | ⟨va, hv, h'⟩
    · exact .inr (.inl ⟨w, rfl, rfl, h.trans h'⟩)
    · exact .inr (.inr ⟨d, va, rfl, hv, h.trans h'⟩)

/-- Everything format VV's resolution can do. -/
theorem resolveVV_cases (s : State) (a b : Operand) (k : Lit → Lit → Result) :
    (∃ w, (a = .invalid w ∨ a.okValue = true ∧ b = .invalid w) ∧
      resolveVV s a b k = raise (.operandError .invalidWord w.toNat) s) ∨
    (∃ va vb, value s a = .ok va ∧ value s b = .ok vb ∧ resolveVV s a b k = k va vb) := by
  rcases resolveV_cases s a fun va => resolveV s b fun vb => k va vb with
    ⟨w, rfl, h⟩ | ⟨va, ha, h⟩
  · exact .inl ⟨w, .inl rfl, h⟩
  · rcases resolveV_cases s b fun vb => k va vb with ⟨w, rfl, h'⟩ | ⟨vb, hb, h'⟩
    · exact .inl ⟨w, .inr ⟨(value_ok_iff s a).1 ⟨va, ha⟩, rfl⟩, h.trans h'⟩
    · exact .inr ⟨va, vb, ha, hb, h.trans h'⟩

/-- Everything format DVV's resolution can do. -/
theorem resolveDVV_cases (s : State) (r a b : Operand) (k : RegIdx → Lit → Lit → Result) :
    (r.okDest = false ∧
      resolveDVV s r a b k = raise (.operandError .badDestination r.word.toNat) s) ∨
    (∃ w, r.okDest = true ∧ (a = .invalid w ∨ a.okValue = true ∧ b = .invalid w) ∧
      resolveDVV s r a b k = raise (.operandError .invalidWord w.toNat) s) ∨
    (∃ d va vb, r = .reg d ∧ value s a = .ok va ∧ value s b = .ok vb ∧
      resolveDVV s r a b k = k d va vb) := by
  rcases resolveD_cases s r fun d => resolveVV s a b fun va vb => k d va vb with
    ⟨hr, h⟩ | ⟨d, rfl, h⟩
  · exact .inl ⟨hr, h⟩
  · rcases resolveVV_cases s a b fun va vb => k d va vb with ⟨w, hw, h'⟩ | ⟨va, vb, ha, hb, h'⟩
    · exact .inr (.inl ⟨w, rfl, hw, h.trans h'⟩)
    · exact .inr (.inr ⟨d, va, vb, rfl, ha, hb, h.trans h'⟩)

/-! ### Fetch -/

/-- Everything a successful fetch says. -/
theorem fetch_ok {s t : State} {w : Word} (h : fetch s = .ok (w, t)) :
    memRead s.mem s.pc.toNat = .ok w ∧ t = { s with pc := s.pc + 1 } ∧
      t.pc.toNat = s.pc.toNat + 1 := by
  unfold fetch at h
  cases hm : memRead s.mem s.pc.toNat with
  | error f => simp [hm] at h
  | ok v =>
    simp only [hm, Except.ok.injEq, Prod.mk.injEq] at h
    obtain ⟨rfl, rfl⟩ := h
    have := (memRead_ok.1 hm).1
    refine ⟨rfl, rfl, ?_⟩
    simp only [BitVec.toNat_add]
    show (s.pc.toNat + 1) % 65536 = _
    omega

/-- Everything a failing fetch says. -/
theorem fetch_error {s : State} {f : Fault} :
    fetch s = .error f ↔ memRead s.mem s.pc.toNat = .error f := by
  unfold fetch
  cases hm : memRead s.mem s.pc.toNat with
  | error g => simp
  | ok v => simp

theorem BitVec_add_assoc_ofNat (x : Word) (n : Nat) :
    x + 1 + BitVec.ofNat 16 n = x + BitVec.ofNat 16 (n + 1) := by
  apply BitVec.eq_of_toNat_eq
  have h1 : (1 : Word).toNat = 1 := rfl
  simp only [BitVec.toNat_add, BitVec.toNat_ofNat, h1]
  omega

/-- Everything a successful fetch of `n` words says. -/
theorem fetchMany_ok {n : Nat} {s t : State} {ws : List Word} (h : fetchMany n s = .ok (ws, t)) :
    s.mem.wordsFrom s.pc.toNat n = ws ∧ ws.length = n ∧
      t = { s with pc := s.pc + BitVec.ofNat 16 n } ∧
      (0 < n → t.pc.toNat = s.pc.toNat + n) := by
  induction n generalizing s ws with
  | zero =>
    simp only [fetchMany, Except.ok.injEq, Prod.mk.injEq] at h
    obtain ⟨rfl, rfl⟩ := h
    simp [Memory.wordsFrom]
  | succ n ih =>
    unfold fetchMany at h
    cases hf : fetch s with
    | error f => simp [hf] at h
    | ok p =>
      obtain ⟨w, s1⟩ := p
      cases hm : fetchMany n s1 with
      | error e => simp [hf, hm] at h
      | ok q =>
        obtain ⟨vs, s2⟩ := q
        simp only [hf, hm, Except.ok.injEq, Prod.mk.injEq] at h
        obtain ⟨rfl, rfl⟩ := h
        obtain ⟨hr, rfl, hpc⟩ := fetch_ok hf
        obtain ⟨hw, hl, rfl, hp⟩ := ih hm
        refine ⟨?_, by simp [hl], ?_, fun _ => ?_⟩
        · rw [hpc] at hw
          simp [Memory.wordsFrom, hr, hw]
        · simp only [BitVec_add_assoc_ofNat]
        · rcases Nat.eq_zero_or_pos n with rfl | hn
          · simpa using hpc
          · rw [hp hn, hpc]; omega

/-- Everything a failing fetch of `n` words says: which words were read, and where it stands. -/
theorem fetchMany_error {n : Nat} {s t : State} {f : Fault} (h : fetchMany n s = .error (f, t)) :
    ∃ k, k < n ∧ (s.mem.wordsFrom s.pc.toNat n).length = k ∧
      memRead s.mem (s.pc.toNat + k) = .error f ∧
      t = { s with pc := s.pc + BitVec.ofNat 16 k } ∧ t.pc.toNat = s.pc.toNat + k := by
  induction n generalizing s with
  | zero => simp [fetchMany] at h
  | succ n ih =>
    unfold fetchMany at h
    cases hf : fetch s with
    | error g =>
      simp only [hf, Except.error.injEq, Prod.mk.injEq] at h
      obtain ⟨rfl, rfl⟩ := h
      have hr := fetch_error.1 hf
      exact ⟨0, Nat.succ_pos n, by simp [Memory.wordsFrom, hr], by simpa using hr, by simp, rfl⟩
    | ok p =>
      obtain ⟨w, s1⟩ := p
      cases hm : fetchMany n s1 with
      | ok q => simp [hf, hm] at h
      | error e =>
        simp only [hf, hm, Except.error.injEq] at h
        subst h
        obtain ⟨hr, rfl, hpc⟩ := fetch_ok hf
        obtain ⟨k, hk, hl, hread, ht, hp⟩ := ih hm
        rw [hpc] at hl hread hp
        refine ⟨k + 1, Nat.succ_lt_succ hk, ?_, ?_, ?_, by omega⟩
        · simpa [Memory.wordsFrom, hr] using hl
        · rw [← hread]; congr 1; omega
        · rw [ht]; simp only [BitVec_add_assoc_ofNat]

/-- At most `n` words are read. -/
theorem Memory.length_wordsFrom_le (m : Memory) (a n : Nat) : (m.wordsFrom a n).length ≤ n := by
  induction n generalizing a with
  | zero => simp [Memory.wordsFrom]
  | succ n ih =>
    simp only [Memory.wordsFrom]
    cases memRead m a with
    | error f => simp
    | ok w => simpa using ih (a + 1)

/-- Asking for fewer words gives the first of them. -/
theorem Memory.wordsFrom_take (m : Memory) (a : Nat) {k n : Nat} (h : k ≤ n) :
    (m.wordsFrom a n).take k = m.wordsFrom a k := by
  induction n generalizing a k with
  | zero =>
    have : k = 0 := by omega
    subst this
    rfl
  | succ n ih =>
    cases k with
    | zero => rfl
    | succ k =>
      simp only [Memory.wordsFrom]
      cases memRead m a with
      | error f => rfl
      | ok w => simp [ih (a + 1) (Nat.le_of_succ_le_succ h)]

end Sys2Proof.Machine
end

