-- ==== Sys2Proof/Laws/Exec.lean ====
section
/-! SUPPORT. Everything `exec` can do, said once: the conditions under which an instruction faults or
halts, and its effect otherwise. -/

namespace Sys2Proof.Machine

/-- The conditions under which an instruction raises a fault, one per row of 60_exceptions.md
rule R203 to rule R205. -/
inductive Raises : Instr → State → Fault → Prop where
  | badDestination {i : Instr} {s : State} (r : Operand) (h : i.destination = some r)
      (hr : r.okDest = false) : Raises i s (.operandError .badDestination r.word.toNat)
  | invalidWord {i : Instr} {s : State} (w : Word) (h : .invalid w ∈ i.operands) :
      Raises i s (.operandError .invalidWord w.toNat)
  | stackUnderflow {s : State} (r : Operand) (h : s.stack = []) :
      Raises (.pop r) s .stackUnderflow
  | modZero {s : State} (r a b : Operand) (h : ∃ v : Lit, value s b = .ok v ∧ v.toNat = 0) :
      Raises (.mod r a b) s (.operandError .modZero 0)
  | unwritten {s : State} (r a : Operand) (v : Lit) (hv : value s a = .ok v)
      (h : s.mem.cell v.toNat = none) : Raises (.rmem r a) s (.memoryFault .unwritten v.toNat)
  | nonLiteralData {s : State} (r a : Operand) (v : Lit) (w : Word) (hv : value s a = .ok v)
      (hc : s.mem.cell v.toNat = some w) (h : 32768 ≤ w.toNat) :
      Raises (.rmem r a) s (.operandError .nonLiteralData w.toNat)
  | returnAddress {s : State} (a : Operand) (h : 32768 ≤ s.pc.toNat) :
      Raises (.call a) s (.operandError .returnAddress s.pc.toNat)
  | outRange {s : State} (a : Operand) (v : Lit) (hv : value s a = .ok v) (h : 128 ≤ v.toNat) :
      Raises (.out a) s (.operandError .outRange v.toNat)

/-- The conditions under which an instruction halts the machine (60_exceptions.md rule R207). -/
inductive Halts : Instr → State → HaltCause → Prop where
  | halt {s : State} : Halts .halt s .haltInstruction
  | ret {s : State} (h : s.stack = []) : Halts .ret s .returnOnEmptyStack
  | inp {s : State} (r : Operand) (h : s.input = []) : Halts (.inp r) s .ioExhausted

/-- The effect of an instruction that completes, before the outcome is recorded. -/
inductive Does : Instr → State → State → Prop where
  | register {i : Instr} {s : State} (d : RegIdx) (v : Lit) (h : i.destination = some (.reg d))
      (hp : i.opcode ≠ .pop) (hi : i.opcode ≠ .inp) : Does i s (s.setReg d v)
  | pop {s : State} (d : RegIdx) (v : Lit) (rest : List Lit) (h : s.stack = v :: rest) :
      Does (.pop (.reg d)) s (({ s with stack := rest } : State).setReg d v)
  | inp {s : State} (d : RegIdx) (c : Lit) (rest : List Lit) (h : s.input = c :: rest) :
      Does (.inp (.reg d)) s (({ s with input := rest } : State).setReg d c)
  | push {s : State} (a : Operand) (v : Lit) (h : value s a = .ok v) : Does (.push a) s (s.push v)
  | jmp {s : State} (a : Operand) (v : Lit) (h : value s a = .ok v) : Does (.jmp a) s (s.jump v)
  | jt {s : State} (a b : Operand) (va vb : Lit) (ha : value s a = .ok va)
      (hb : value s b = .ok vb) : Does (.jt a b) s (if va.toNat ≠ 0 then s.jump vb else s)
  | jf {s : State} (a b : Operand) (va vb : Lit) (ha : value s a = .ok va)
      (hb : value s b = .ok vb) : Does (.jf a b) s (if va.toNat = 0 then s.jump vb else s)
  | noop {s : State} : Does .noop s s
  | call {s : State} (a : Operand) (ra v : Lit) (h : ra.toNat = s.pc.toNat)
      (hv : value s a = .ok v) : Does (.call a) s ((s.push ra).jump v)
  | ret {s : State} (v : Lit) (rest : List Lit) (h : s.stack = v :: rest) :
      Does .ret s (({ s with stack := rest } : State).jump v)
  | store {s : State} (a b : Operand) (va vb : Lit) (ha : value s a = .ok va)
      (hb : value s b = .ok vb) :
      Does (.wmem a b) s { s with mem := s.mem.put va.toNat (BitVec.ofNat 16 vb.toNat) }
  | out {s : State} (a : Operand) (v : Lit) (h : value s a = .ok v) (hv : v.toNat < 128) :
      Does (.out a) s (s.emit (v.setWidth 7))

/-- Everything an instruction can do. -/
inductive Effect (i : Instr) (s : State) : Result → Prop where
  | raises (f : Fault) (h : Raises i s f) : Effect i s (raise f s)
  | halts (c : HaltCause) (h : Halts i s c) : Effect i s (haltMachine c s)
  | does (t : State) (h : Does i s t) : Effect i s (complete t)

/-- A DVV instruction that writes one register. -/
theorem effect_dvv {i : Instr} {s : State} {r a b : Operand} (f : Lit → Lit → Lit)
    (hd : i.destination = some r) (ha : a ∈ i.operands) (hb : b ∈ i.operands)
    (hp : i.opcode ≠ .pop) (hi : i.opcode ≠ .inp) :
    Effect i s (resolveDVV s r a b fun d va vb => complete (s.setReg d (f va vb))) := by
  rcases resolveDVV_cases s r a b fun d va vb => complete (s.setReg d (f va vb)) with
    ⟨hr, h⟩ | ⟨w, -, hw, h⟩ | ⟨d, va, vb, rfl, -, -, h⟩
  · exact h ▸ .raises _ (.badDestination r hd hr)
  · refine h ▸ .raises _ (.invalidWord w ?_)
    rcases hw with rfl | ⟨-, rfl⟩ <;> assumption
  · exact h ▸ .does _ (.register d _ hd hp hi)

/-- A DV instruction that writes one register. -/
theorem effect_dv {i : Instr} {s : State} {r a : Operand} (f : Lit → Lit)
    (hd : i.destination = some r) (ha : a ∈ i.operands)
    (hp : i.opcode ≠ .pop) (hi : i.opcode ≠ .inp) :
    Effect i s (resolveDV s r a fun d va => complete (s.setReg d (f va))) := by
  rcases resolveDV_cases s r a fun d va => complete (s.setReg d (f va)) with
    ⟨hr, h⟩ | ⟨w, -, rfl, h⟩ | ⟨d, va, rfl, -, h⟩
  · exact h ▸ .raises _ (.badDestination r hd hr)
  · exact h ▸ .raises _ (.invalidWord w ha)
  · exact h ▸ .does _ (.register d _ hd hp hi)

theorem effect_pop (r : Operand) (s : State) : Effect (.pop r) s (execPop r s) := by
  unfold execPop
  rcases resolveD_cases s r fun d => orRaise s s.pop fun top => complete (top.2.setReg d top.1) with
    ⟨hr, h⟩ | ⟨d, rfl, h⟩
  · exact h ▸ .raises _ (.badDestination r rfl hr)
  · rw [h]
    cases hs : s.stack with
    | nil => rw [State.pop_nil hs]; exact .raises _ (.stackUnderflow _ hs)
    | cons v rest => rw [State.pop_cons hs]; exact .does _ (.pop d v rest hs)

theorem effect_mod (r a b : Operand) (s : State) :
    Effect (.mod r a b) s (execMod r a b s) := by
  unfold execMod
  rcases resolveDVV_cases s r a b (fun d va vb =>
      orRaise s (remainder va vb) fun v => complete (s.setReg d v)) with
    ⟨hr, h⟩ | ⟨w, -, hw, h⟩ | ⟨d, va, vb, rfl, -, hb, h⟩
  · exact h ▸ .raises _ (.badDestination r rfl hr)
  · refine h ▸ .raises _ (.invalidWord w ?_)
    rcases hw with rfl | ⟨-, rfl⟩ <;> simp [Instr.operands]
  · rw [h]
    by_cases hz : vb.toNat = 0
    · rw [remainder_zero va hz]
      exact .raises _ (.modZero _ _ _ ⟨vb, hb, hz⟩)
    · rw [remainder_pos va hz]
      exact .does _ (.register d _ rfl nofun nofun)

theorem effect_rmem (r a : Operand) (s : State) : Effect (.rmem r a) s (execRmem r a s) := by
  unfold execRmem
  rcases resolveDV_cases s r a (fun d va =>
      orRaise s (memRead s.mem va.toNat) fun m =>
        if Config.litMax < m.toNat then raise (.operandError .nonLiteralData m.toNat) s
        else complete (s.setReg d (m.setWidth 15))) with
    ⟨hr, h⟩ | ⟨w, -, rfl, h⟩ | ⟨d, va, rfl, ha, h⟩
  · exact h ▸ .raises _ (.badDestination r rfl hr)
  · exact h ▸ .raises _ (.invalidWord w (by simp [Instr.operands]))
  · rw [h]
    cases hm : memRead s.mem va.toNat with
    | error f =>
      rcases memRead_error.1 hm with ⟨hge, -⟩ | ⟨-, hc, rfl⟩
      · have := va.isLt; omega
      · exact .raises _ (.unwritten _ a va ha hc)
    | ok m =>
      rw [orRaise_ok]
      split
      · next hlt =>
        exact .raises _ (.nonLiteralData _ a va m ha (memRead_ok.1 hm).2
          (Nat.succ_le_of_lt hlt))
      · exact .does _ (.register d _ rfl nofun nofun)

theorem effect_wmem (a b : Operand) (s : State) : Effect (.wmem a b) s (execWmem a b s) := by
  unfold execWmem
  rcases resolveVV_cases s a b (fun va vb =>
      orRaise s (memWrite s.mem va.toNat vb.toNat) fun m => complete { s with mem := m }) with
    ⟨w, hw, h⟩ | ⟨va, vb, ha, hb, h⟩
  · refine h ▸ .raises _ (.invalidWord w ?_)
    rcases hw with rfl | ⟨-, rfl⟩ <;> simp [Instr.operands]
  · have h1 := va.isLt
    have h2 := vb.isLt
    rw [h, memWrite_legal (by omega) (by omega)]
    exact .does _ (.store a b va vb ha hb)

theorem effect_jt (a b : Operand) (s : State) : Effect (.jt a b) s (execJt a b s) := by
  unfold execJt
  rcases resolveVV_cases s a b
      (fun va vb => complete (if va.toNat ≠ 0 then s.jump vb else s)) with
    ⟨w, hw, h⟩ | ⟨va, vb, ha, hb, h⟩
  · refine h ▸ .raises _ (.invalidWord w ?_)
    rcases hw with rfl | ⟨-, rfl⟩ <;> simp [Instr.operands]
  · exact h ▸ .does _ (.jt a b va vb ha hb)

theorem effect_jf (a b : Operand) (s : State) : Effect (.jf a b) s (execJf a b s) := by
  unfold execJf
  rcases resolveVV_cases s a b
      (fun va vb => complete (if va.toNat = 0 then s.jump vb else s)) with
    ⟨w, hw, h⟩ | ⟨va, vb, ha, hb, h⟩
  · refine h ▸ .raises _ (.invalidWord w ?_)
    rcases hw with rfl | ⟨-, rfl⟩ <;> simp [Instr.operands]
  · exact h ▸ .does _ (.jf a b va vb ha hb)

theorem effect_call (a : Operand) (s : State) : Effect (.call a) s (execCall a s) := by
  unfold execCall
  rcases resolveV_cases s a (fun va =>
      if Config.litMax < s.pc.toNat then raise (.operandError .returnAddress s.pc.toNat) s
      else complete ((s.push (s.pc.setWidth 15)).jump va)) with
    ⟨w, rfl, h⟩ | ⟨va, ha, h⟩
  · exact h ▸ .raises _ (.invalidWord w (by simp [Instr.operands]))
  · rw [h]
    split
    · next hlt => exact .raises _ (.returnAddress a (Nat.succ_le_of_lt hlt))
    · next hlt =>
      refine .does _ (.call a _ va ?_ ha)
      simp only [Config.litMax] at hlt
      rw [BitVec.toNat_setWidth]
      omega

theorem effect_ret (s : State) : Effect .ret s (execRet s) := by
  unfold execRet State.stackEmpty
  cases hs : s.stack with
  | nil => exact .halts _ (.ret hs)
  | cons v rest => rw [State.pop_cons hs]; exact .does _ (.ret v rest hs)

theorem effect_out (a : Operand) (s : State) : Effect (.out a) s (execOut a s) := by
  unfold execOut
  rcases resolveV_cases s a (fun va =>
      if Config.outLimit ≤ va.toNat then raise (.operandError .outRange va.toNat) s
      else complete (s.emit (va.setWidth 7))) with
    ⟨w, rfl, h⟩ | ⟨va, ha, h⟩
  · exact h ▸ .raises _ (.invalidWord w (by simp [Instr.operands]))
  · rw [h]
    split
    · next hle => exact .raises _ (.outRange a va ha (by simpa using hle))
    · next hle => exact .does _ (.out a va ha (by simpa using hle))

theorem effect_inp (r : Operand) (s : State) : Effect (.inp r) s (execIn r s) := by
  unfold execIn
  rcases resolveD_cases s r (fun d =>
      orHalt .ioExhausted s s.takeInput fun unit => complete (unit.2.setReg d unit.1)) with
    ⟨hr, h⟩ | ⟨d, rfl, h⟩
  · exact h ▸ .raises _ (.badDestination r rfl hr)
  · rw [h]
    cases hs : s.input with
    | nil => rw [State.takeInput_nil hs]; exact .halts _ (.inp _ hs)
    | cons c rest => rw [State.takeInput_cons hs]; exact .does _ (.inp d c rest hs)

/-- `push` and `jmp`: a V instruction whose effect cannot fail. -/
theorem effect_v {i : Instr} {s : State} {a : Operand} (f : Lit → State) (ha : a ∈ i.operands)
    (hf : ∀ v, value s a = .ok v → Does i s (f v)) :
    Effect i s (resolveV s a fun v => complete (f v)) := by
  rcases resolveV_cases s a fun v => complete (f v) with ⟨w, rfl, h⟩ | ⟨v, hv, h⟩
  · exact h ▸ .raises _ (.invalidWord w ha)
  · exact h ▸ .does _ (hf v hv)

/-- Every instruction, in every state, does one of the listed things. -/
theorem exec_effect (i : Instr) (s : State) : Effect i s (exec i s) := by
  cases i with
  | halt => exact .halts _ .halt
  | set r a => exact effect_dv (fun va => va) rfl (by simp [Instr.operands]) nofun nofun
  | push a => exact effect_v s.push (by simp [Instr.operands]) fun v hv => .push a v hv
  | pop r => exact effect_pop r s
  | eq r a b =>
    exact effect_dvv aluEq rfl (by simp [Instr.operands]) (by simp [Instr.operands]) nofun nofun
  | gt r a b =>
    exact effect_dvv aluGt rfl (by simp [Instr.operands]) (by simp [Instr.operands]) nofun nofun
  | jmp a => exact effect_v s.jump (by simp [Instr.operands]) fun v hv => .jmp a v hv
  | jt a b => exact effect_jt a b s
  | jf a b => exact effect_jf a b s
  | add r a b =>
    exact effect_dvv aluAdd rfl (by simp [Instr.operands]) (by simp [Instr.operands]) nofun nofun
  | mult r a b =>
    exact effect_dvv aluMult rfl (by simp [Instr.operands]) (by simp [Instr.operands]) nofun nofun
  | mod r a b => exact effect_mod r a b s
  | and r a b =>
    exact effect_dvv aluAnd rfl (by simp [Instr.operands]) (by simp [Instr.operands]) nofun nofun
  | or r a b =>
    exact effect_dvv aluOr rfl (by simp [Instr.operands]) (by simp [Instr.operands]) nofun nofun
  | not r a => exact effect_dv aluNot rfl (by simp [Instr.operands]) nofun nofun
  | rmem r a => exact effect_rmem r a s
  | wmem a b => exact effect_wmem a b s
  | call a => exact effect_call a s
  | ret => exact effect_ret s
  | out a => exact effect_out a s
  | inp r => exact effect_inp r s
  | noop => exact .does _ .noop

end Sys2Proof.Machine
end

