-- ==== Sys2Proof/Laws/PerInstr.lean ====
section
/-! SUPPORT. Statements about every instruction as syntax, one lemma per constructor: the encoding
begins with the opcode id and has the words of the opcode's format (30_encoding.md rule R70,
rule R71). -/

namespace Sys2Proof.Laws.EncodingShape

/-- The encoding is the opcode id as a plain number, then as many operand words as the format has;
the destination, where the format has one, is the first operand. -/
def Statement (i : Instr) : Prop :=
  (encode i).length = 1 + i.opcode.format.operandCount ∧
  (encode i).head? = some (BitVec.ofNat 16 i.opcode.id) ∧
  (∀ r, i.destination = some r → i.operands.head? = some r)

theorem halt : Statement .halt := ⟨rfl, rfl, fun _ h => nomatch h⟩

theorem set (r a : Operand) : Statement (.set r a) := ⟨rfl, rfl, fun _ h => h⟩

theorem push (a : Operand) : Statement (.push a) := ⟨rfl, rfl, fun _ h => nomatch h⟩

theorem pop (r : Operand) : Statement (.pop r) := ⟨rfl, rfl, fun _ h => h⟩

theorem eq (r a b : Operand) : Statement (.eq r a b) := ⟨rfl, rfl, fun _ h => h⟩

theorem gt (r a b : Operand) : Statement (.gt r a b) := ⟨rfl, rfl, fun _ h => h⟩

theorem jmp (a : Operand) : Statement (.jmp a) := ⟨rfl, rfl, fun _ h => nomatch h⟩

theorem jt (a b : Operand) : Statement (.jt a b) := ⟨rfl, rfl, fun _ h => nomatch h⟩

theorem jf (a b : Operand) : Statement (.jf a b) := ⟨rfl, rfl, fun _ h => nomatch h⟩

theorem add (r a b : Operand) : Statement (.add r a b) := ⟨rfl, rfl, fun _ h => h⟩

theorem mult (r a b : Operand) : Statement (.mult r a b) := ⟨rfl, rfl, fun _ h => h⟩

theorem mod (r a b : Operand) : Statement (.mod r a b) := ⟨rfl, rfl, fun _ h => h⟩

theorem and (r a b : Operand) : Statement (.and r a b) := ⟨rfl, rfl, fun _ h => h⟩

theorem or (r a b : Operand) : Statement (.or r a b) := ⟨rfl, rfl, fun _ h => h⟩

theorem not (r a : Operand) : Statement (.not r a) := ⟨rfl, rfl, fun _ h => h⟩

theorem rmem (r a : Operand) : Statement (.rmem r a) := ⟨rfl, rfl, fun _ h => h⟩

theorem wmem (a b : Operand) : Statement (.wmem a b) := ⟨rfl, rfl, fun _ h => nomatch h⟩

theorem call (a : Operand) : Statement (.call a) := ⟨rfl, rfl, fun _ h => nomatch h⟩

theorem ret : Statement .ret := ⟨rfl, rfl, fun _ h => nomatch h⟩

theorem out (a : Operand) : Statement (.out a) := ⟨rfl, rfl, fun _ h => nomatch h⟩

theorem inp (r : Operand) : Statement (.inp r) := ⟨rfl, rfl, fun _ h => h⟩

theorem noop : Statement .noop := ⟨rfl, rfl, fun _ h => nomatch h⟩

end Sys2Proof.Laws.EncodingShape
end

