-- ==== Sys2Proof/Tests/Slice0.lean ====
section
/-! SUPPORT. Small tests: the well-formedness checks refuse ill-formed terms; a word sequence of every
instruction, written out bit by bit from 30_encoding.md rule R70 to rule R73, decodes to it; single
steps against the vectors of 95_test_vectors.md (their ids stand in the docstrings); and a witness
for the hypotheses of every obligation that has any. -/

namespace Sys2Proof.Tests

open Sys2Proof Sys2Proof.Machine

/-- The machine right after loading a program at address 0, with no input. -/
def mach (ws : List Word) : State := State.resetWith (Vector.replicate 8 0) ws [] [] Debug.initial

/-- The same with the first three registers and the stack set. -/
def machWith (ws : List Word) (r0 r1 r2 : Lit) (stack : List Lit) : State :=
  { mach ws with regs := #v[r0, r1, r2, 0, 0, 0, 0, 0], stack := stack }

/-- The machine with two words at an address and `pc` there. -/
def machAt (a : Nat) (w1 w2 : Word) : State :=
  { mach [] with mem := [(a, w1), (a + 1, w2)], pc := BitVec.ofNat 16 a }

/-- A view of the state after one step. -/
def after {α : Type} (s : State) (f : State → α) : Option α :=
  match step s with
  | .next t => some (f t)
  | .fault _ => none
  | .refused _ => none

/-- Register `i`, `pc` and the outcome after one step. -/
def regPc (s : State) (i : RegIdx) : Option (Nat × Nat × StepOutcome) :=
  after s fun t => ((t.getReg i).toNat, t.pc.toNat, t.outcome)

/-! ### Well-formedness refuses -/

theorem test_dest_literal_refused : (Operand.lit 5).okDest = false := by decide
theorem test_dest_invalid_refused : (Operand.invalid 32776).okDest = false := by decide
theorem test_value_invalid_refused : (Operand.invalid 32776).okValue = false := by decide
theorem test_class_of_register_word_refused : (Operand.invalid 32775).isClass = false := by decide
theorem test_wf_dv_refused : (Instr.set (.lit 1) (.lit 2)).wellFormed = false := by decide
theorem test_wf_v_refused : (Instr.push (.invalid 40000)).wellFormed = false := by decide
theorem test_wf_d_refused : (Instr.pop (.lit 0)).wellFormed = false := by decide
theorem test_wf_vv_refused : (Instr.wmem (.lit 0) (.invalid 65535)).wellFormed = false := by decide
theorem test_wf_dvv_refused :
    (Instr.add (.reg 0) (.reg 1) (.invalid 32776)).wellFormed = false := by decide
theorem test_wf_accepted : (Instr.add (.reg 0) (.reg 1) (.lit 32767)).wellFormed = true := by decide
theorem test_encodable_refused : (Instr.jt (.lit 0) (.invalid 7)).encodable = false := by decide

/-! ### One word sequence of every instruction -/

theorem test_decode_halt : decode [0b0000000000000000] = .ok (.halt, []) := by rfl
theorem test_decode_set :
    decode [0b0000000000000001, 0b1000000000000010, 0b0000000000000111] =
      .ok (.set (.reg 2) (.lit 7), []) := by rfl
theorem test_decode_push :
    decode [0b0000000000000010, 0b1000000000000111] = .ok (.push (.reg 7), []) := by rfl
theorem test_decode_pop :
    decode [0b0000000000000011, 0b1000000000000001] = .ok (.pop (.reg 1), []) := by rfl
theorem test_decode_eq :
    decode [0b0000000000000100, 0b1000000000000000, 0b1000000000000000, 0b0000000000000101] =
      .ok (.eq (.reg 0) (.reg 0) (.lit 5), []) := by rfl
theorem test_decode_gt :
    decode [0b0000000000000101, 0b1000000000000010, 0b0000000000000011, 0b1000000000000001] =
      .ok (.gt (.reg 2) (.lit 3) (.reg 1), []) := by rfl
theorem test_decode_jmp :
    decode [0b0000000000000110, 0b0000000001100100] = .ok (.jmp (.lit 100), []) := by rfl
theorem test_decode_jt :
    decode [0b0000000000000111, 0b1000000000000000, 0b0000000000000110] =
      .ok (.jt (.reg 0) (.lit 6), []) := by rfl
theorem test_decode_jf :
    decode [0b0000000000001000, 0b1000000000000010, 0b0000000000010111] =
      .ok (.jf (.reg 2) (.lit 23), []) := by rfl
theorem test_decode_add :
    decode [0b0000000000001001, 0b1000000000000010, 0b1000000000000000, 0b1000000000000001] =
      .ok (.add (.reg 2) (.reg 0) (.reg 1), []) := by rfl
theorem test_decode_mult :
    decode [0b0000000000001010, 0b1000000000000010, 0b0000000000000110, 0b0000000000000111] =
      .ok (.mult (.reg 2) (.lit 6) (.lit 7), []) := by rfl
theorem test_decode_mod :
    decode [0b0000000000001011, 0b1000000000000000, 0b0000000000000111, 0b0000000000000000] =
      .ok (.mod (.reg 0) (.lit 7) (.lit 0), []) := by rfl
theorem test_decode_and :
    decode [0b0000000000001100, 0b1000000000000010, 0b0101010101010101, 0b0011001100110011] =
      .ok (.and (.reg 2) (.lit 21845) (.lit 13107), []) := by rfl
theorem test_decode_or :
    decode [0b0000000000001101, 0b1000000000000010, 0b0101010101010101, 0b0010101010101010] =
      .ok (.or (.reg 2) (.lit 21845) (.lit 10922), []) := by rfl
theorem test_decode_not :
    decode [0b0000000000001110, 0b1000000000000010, 0b0111111111111111] =
      .ok (.not (.reg 2) (.lit 32767), []) := by rfl
theorem test_decode_rmem :
    decode [0b0000000000001111, 0b1000000000000000, 0b1000000000000001] =
      .ok (.rmem (.reg 0) (.reg 1), []) := by rfl
theorem test_decode_wmem :
    decode [0b0000000000010000, 0b0000000001100100, 0b0000000001000010] =
      .ok (.wmem (.lit 100) (.lit 66), []) := by rfl
theorem test_decode_call :
    decode [0b0000000000010001, 0b0000000000000110] = .ok (.call (.lit 6), []) := by rfl
theorem test_decode_ret : decode [0b0000000000010010] = .ok (.ret, []) := by rfl
theorem test_decode_out :
    decode [0b0000000000010011, 0b0000000000100011] = .ok (.out (.lit 35), []) := by rfl
theorem test_decode_in :
    decode [0b0000000000010100, 0b1000000000000011] = .ok (.inp (.reg 3), []) := by rfl
theorem test_decode_noop : decode [0b0000000000010101] = .ok (.noop, []) := by rfl

/-- V-D12 to V-D14: no opcode. -/
theorem test_decode_unknown :
    decode [22] = .error (.unknownOpcode 22) ∧ decode [32767] = .error (.unknownOpcode 32767) ∧
      decode [32768] = .error (.unknownOpcode 32768) := ⟨rfl, rfl, rfl⟩
theorem test_decode_truncated : decode [9, 32768, 1] = .error (.truncated .add 2) := by rfl
theorem test_decode_empty : decode [] = .error .noOpcodeWord := by rfl

/-- An operand word outside `[0, 32775]` is read as itself. -/
theorem test_decode_invalid_operand : decode [2, 32776] = .ok (.push (.invalid 32776), []) := by rfl

theorem test_table_word_add : decodeTableWord 16 9 = some (.add (.lit 0) (.lit 0) (.lit 0)) := by
  decide
theorem test_table_word_with_operands :
    decodeTableWord 64 0x8001800080020009 = some (.add (.reg 2) (.reg 0) (.reg 1)) := by decide
theorem test_table_word_above_nbits : decodeTableWord 16 0x80020002 = some (.push (.lit 0)) := by
  decide
theorem test_table_word_unknown : decodeTableWord 16 22 = none := by decide
theorem test_fetch_word_runs :
    after (State.reset.withFetchWord 48 0x000780020001) (fun t => (t.getReg 2, t.pc, t.outcome)) =
      some (7, 3, .continued) := by decide
theorem test_fetch_word_at_end :
    after (({ State.reset with pc := 32768 } : State).withFetchWord 16 21) (fun t => t.pc) =
      some 1 := by decide

/-! ### Single steps -/

/-- V-S1. -/
theorem test_halt :
    after (mach [0]) (fun t => (t.run, t.outcome, t.pc)) =
      some (.halted .haltInstruction, .halted, 1) := by decide
/-- V-S2. -/
theorem test_noop : after (mach [21]) (fun t => (t.outcome, t.pc)) = some (.continued, 1) := by decide
/-- V-M3. -/
theorem test_set : regPc (mach [1, 32775, 32767]) 7 = some (32767, 3, .continued) := by decide
/-- V-M4. -/
theorem test_set_literal_dest :
    regPc (mach [1, 5, 7]) 5 = some (0, 3, .faulted (.operandError .badDestination 5)) := by decide
/-- V-M6. -/
theorem test_push :
    after (machWith [2, 32768] 4 0 0 [9]) (fun t => (t.stack, t.pc)) = some ([4, 9], 2) := by decide
/-- V-M7. -/
theorem test_pop :
    after (machWith [3, 32769] 0 0 0 [4, 9]) (fun t => (t.getReg 1, t.stack, t.pc)) =
      some (4, [9], 2) := by decide
/-- V-M8. -/
theorem test_pop_empty : regPc (mach [3, 32768]) 0 = some (0, 2, .faulted .stackUnderflow) := by decide
/-- V-C9: the source is read before the destination is written. -/
theorem test_eq : regPc (machWith [4, 32768, 32768, 5] 5 0 0 []) 0 = some (1, 4, .continued) := by
  decide
/-- V-C3. -/
theorem test_eq_differs :
    regPc (machWith [4, 32770, 32768, 32769] 0 32767 9 []) 2 = some (0, 4, .continued) := by decide
/-- V-C7: unsigned. -/
theorem test_gt :
    regPc (machWith [5, 32770, 32768, 32769] 32767 0 0 []) 2 = some (1, 4, .continued) := by decide
/-- V-C6. -/
theorem test_gt_equal :
    regPc (machWith [5, 32770, 32768, 32769] 3 3 9 []) 2 = some (0, 4, .continued) := by decide
/-- V-J2. -/
theorem test_jmp : after (machWith [6, 32768] 300 0 0 []) (fun t => t.pc) = some 300 := by decide
/-- V-J3, V-J4 (at address 0). -/
theorem test_jt :
    after (machWith [7, 32768, 6] 4 0 0 []) (fun t => t.pc) = some 6 ∧
      after (machWith [7, 32768, 6] 0 0 0 []) (fun t => t.pc) = some 3 := by decide
/-- V-J5, V-J6 (at address 0). -/
theorem test_jf :
    after (machWith [8, 32768, 6] 0 0 0 []) (fun t => t.pc) = some 6 ∧
      after (machWith [8, 32768, 6] 32767 0 0 []) (fun t => t.pc) = some 3 := by decide
/-- V-A2. -/
theorem test_add : regPc (mach [9, 32770, 32767, 1]) 2 = some (0, 4, .continued) := by decide
/-- V-A33: the destination is a source. -/
theorem test_add_in_place :
    regPc (machWith [9, 32768, 32768, 32769] 32767 1 0 []) 0 = some (0, 4, .continued) := by decide
/-- V-A9. -/
theorem test_mult : regPc (mach [10, 32770, 182, 182]) 2 = some (356, 4, .continued) := by decide
/-- V-A10. -/
theorem test_mult_largest :
    regPc (mach [10, 32770, 32767, 32767]) 2 = some (1, 4, .continued) := by decide
/-- V-A15. -/
theorem test_mod : regPc (mach [11, 32770, 7, 3]) 2 = some (1, 4, .continued) := by decide
/-- V-A21. -/
theorem test_mod_zero :
    regPc (mach [11, 32770, 7, 0]) 2 = some (0, 4, .faulted (.operandError .modZero 0)) := by decide
/-- V-A23. -/
theorem test_and : regPc (mach [12, 32770, 21845, 13107]) 2 = some (4369, 4, .continued) := by decide
/-- V-A26. -/
theorem test_or : regPc (mach [13, 32770, 21845, 13107]) 2 = some (30583, 4, .continued) := by decide
/-- V-A31. -/
theorem test_not : regPc (mach [14, 32770, 21845]) 2 = some (10922, 3, .continued) := by decide
/-- V-L2. -/
theorem test_rmem : regPc (machWith [15, 32768, 32769, 65] 0 3 0 []) 0 = some (65, 3, .continued) := by
  decide
/-- V-L5, V-L4. -/
theorem test_rmem_faults :
    regPc (mach [15, 32768, 1]) 0 = some (0, 3, .faulted (.operandError .nonLiteralData 32768)) ∧
      regPc (mach [15, 32768, 100]) 0 = some (0, 3, .faulted (.memoryFault .unwritten 100)) := by
  decide
/-- V-L9. -/
theorem test_wmem :
    after (mach [16, 32767, 1]) (fun t => (t.mem.cell 32767, t.mem.wf, t.pc)) =
      some (some 1, true, 3) := by decide
/-- V-L7: it overwrites its own third word. -/
theorem test_wmem_own_word :
    after (machWith [16, 32768, 32769] 2 9 0 []) (fun t => (t.mem.cell 2, t.outcome)) =
      some (some 9, .continued) := by decide
/-- V-J11. -/
theorem test_call :
    after (machAt 32765 17 0) (fun t => (t.stack, t.pc)) = some ([32767], 0) := by decide
/-- V-J10. -/
theorem test_call_return_address :
    after (machAt 32766 17 0) (fun t => (t.stack, t.pc, t.outcome)) =
      some ([], 32768, .faulted (.operandError .returnAddress 32768)) := by decide
/-- V-J8 (at address 0). -/
theorem test_ret :
    after (machWith [18] 0 0 0 [2]) (fun t => (t.stack, t.pc, t.outcome)) =
      some ([], 2, .continued) := by decide
/-- V-J9. -/
theorem test_ret_empty :
    after (mach [18]) (fun t => (t.run, t.pc, t.outcome)) =
      some (.halted .returnOnEmptyStack, 1, .halted) := by decide
/-- V-I2. -/
theorem test_out : after (mach [19, 127]) (fun t => (t.output, t.pc)) = some ([127], 2) := by decide
/-- V-I3. -/
theorem test_out_range :
    after (mach [19, 128]) (fun t => (t.output, t.pc, t.outcome)) =
      some ([], 2, .faulted (.operandError .outRange 128)) := by decide
/-- V-I7. -/
theorem test_in :
    after { mach [20, 32768] with input := [104, 105] } (fun t => (t.getReg 0, t.input, t.pc)) =
      some (104, [105], 2) := by decide
/-- V-I8. -/
theorem test_in_exhausted :
    after (mach [20, 32768]) (fun t => (t.run, t.outcome, t.pc)) =
      some (.halted .ioExhausted, .halted, 2) := by decide
/-- V-F3, V-F1. -/
theorem test_fetch_faults :
    after (mach [1]) (fun t => (t.pc, t.outcome)) = some (1, .faulted (.memoryFault .unwritten 1)) ∧
      after (mach []) (fun t => (t.pc, t.outcome)) =
        some (0, .faulted (.memoryFault .unwritten 0)) := by decide
/-- V-F5: a truncated instruction at the end of memory. -/
theorem test_fetch_past_the_end :
    after { mach [] with mem := [(32767, 1)], pc := 32767 } (fun t => (t.pc, t.outcome)) =
      some (32768, .faulted (.memoryFault .outOfRange 32768)) := by decide
/-- V-F9. -/
theorem test_unknown_opcode :
    after (mach [32775]) (fun t => (t.pc, t.outcome)) =
      some (1, .faulted (.decodeError 32775)) := by decide
/-- V-S3. -/
theorem test_step_while_halted :
    after { mach [0] with run := .halted .haltInstruction, pc := 1 } (fun t => (t.outcome, t.pc)) =
      some (.halted, 1) := by decide

/-! ### The host -/

/-- V-R2 and 70_reset_and_hazards.md rule R250: the overwritten cell is the image's again. -/
theorem test_reset_restores_memory :
    after (mach [16, 0, 21]) (fun t => (t.mem.cell 0, (hostReset t).mem.cell 0)) =
      some (some 21, some 16) := by decide
/-- V-F8. -/
theorem test_load_refuses_word : load [21, 32776] (mach []) = .error (.encodingError 32776) := by rfl
/-- P1, the source's S10: the image file is the bytes `13 00 23 00 00 00`. -/
theorem test_image_bytes : wordsOfBytes [0x13, 0x00, 0x23, 0x00, 0x00, 0x00] = some [19, 35, 0] := by
  decide
/-- 30_encoding.md rule R81: `rN` is `32768 + N`; `r8` is refused. -/
theorem test_register_token :
    Token.word [] (.register 7) = some 32775 ∧ Token.word [] (.register 8) = none ∧
      Token.word [] (.name "in") = some 20 := by decide
/-- S9: a snapshot holds `pc`, registers and stack. -/
theorem test_snapshot :
    (machWith [21] 1 2 3 [9, 4]).snapshot =
      { pc := 0, registers := [1, 2, 3, 0, 0, 0, 0, 0], stack := [9, 4] } := by decide
/-- 60_exceptions.md rule R224: address 0 is not registrable. -/
theorem test_breakpoint_at_zero : (mach [21]).registrable 0 = false := by decide
/-- 60_exceptions.md rule R228: `show memory 0 1`, an unwritten cell among them; `show pc`. -/
theorem test_show :
    (execute 1 (.inspect .memory (.span 0 1)) (mach [21])).2 =
        .view (.memory [(0, some 21), (1, none)]) ∧
      (execute 1 (.inspect .pc .omitted) (mach [21])).2 = .view (.pc 0) := by decide
/-- 60_exceptions.md rule R226: the core file keeps the words and not the addresses. -/
theorem test_core_dump :
    ({ mach [] with mem := [(3, 7), (100, 66)] } : State).coreDump = [7, 66] := by decide
/-- 60_exceptions.md rule R227: an unknown command is reported. -/
theorem test_unknown_command :
    (execute 1 (.other "undo") (mach [])).2 = .error .unknownCommand := by decide

/-! ### Witnesses: concrete states and operands that meet the hypotheses of each obligation -/

/-- The invariant of a running machine whose last step completed. -/
theorem inv_of {s : State} (h1 : s.mem.wf = true) (h2 : s.mem.legal = true)
    (h3 : s.pc.toNat ≤ 32768) (h4 : imageLegal s.program = true) (h5 : s.outcome = .continued)
    (h6 : s.run = .running) : s.Inv :=
  ⟨h1, h2, h3, h4, by simp [h5, h6], fun f h => nomatch h5.symm.trans h⟩

/-- A view after a step comes from a next state. -/
theorem next_of_after {α : Type} {s : State} {f : State → α} {x : α} (h : after s f = some x) :
    ∃ t, step s = .next t ∧ f t = x := by
  unfold after at h
  split at h
  · next t ht => exact ⟨t, ht, by simpa using h⟩
  · cases h
  · cases h

/-- A step of a running machine that meets the invariant raises a fault. -/
theorem step_faults {s : State} {f : Fault} (h1 : s.mem.wf = true) (h2 : s.mem.legal = true)
    (h3 : s.pc.toNat ≤ 32768) (h4 : imageLegal s.program = true) (h5 : s.outcome = .continued)
    (h6 : s.run = .running) (h7 : after s State.outcome = some (.faulted f)) :
    s.Inv ∧ s.run = .running ∧ ∃ t, step s = .next t ∧ t.outcome = .faulted f :=
  ⟨inv_of h1 h2 h3 h4 h5 h6, h6, next_of_after h7⟩

theorem inv_mach_noop : (mach [21]).Inv :=
  inv_of (by decide) (by decide) (by decide) (by decide) rfl rfl

/-- A run of one step. -/
theorem reaches_one {s t : State} (h : step s = .next t) : Reaches s t := .next (.refl s) h

theorem witness_DecodeAfterEncodeIsIdentity :
    (Instr.add (.reg 7) (.lit 32767) (.invalid 32776)).encodable = true := by decide

theorem witness_EncodeAfterDecodeGivesTheWords :
    decode [2, 32776, 7] = .ok (.push (.invalid 32776), [7]) := by rfl

theorem witness_WordsSplitIntoThreeClasses :
    (0#16).toNat ≤ 32767 ∧ (32767#16).toNat ≤ 32767 ∧
      (32768 ≤ (32768#16).toNat ∧ (32768#16).toNat ≤ 32775) ∧
      (32768 ≤ (32775#16).toNat ∧ (32775#16).toNat ≤ 32775) ∧
      32776 ≤ (32776#16).toNat ∧ 32776 ≤ (65535#16).toNat := by decide

theorem witness_ValuePositionResolves :
    (32767#16).toNat ≤ 32767 ∧ (32768#16).toNat = 32768 + (0 : RegIdx).val ∧
      (32775#16).toNat = 32768 + (7 : RegIdx).val ∧ 32776 ≤ (32776#16).toNat ∧
      value (mach [21]) (decodeOperand 32767) = .ok 32767 ∧
      (mach [21]).Inv ∧ memRead (mach [21]).mem 0 = .ok 21 :=
  ⟨by decide, by decide, by decide, by decide, rfl, inv_mach_noop, rfl⟩

theorem witness_DestinationPositionDecodes :
    (32768#16).toNat = 32768 + (0 : RegIdx).val ∧ (32775#16).toNat = 32768 + (7 : RegIdx).val ∧
      (32767#16).toNat ≤ 32767 ∧ 32776 ≤ (32776#16).toNat := by decide

theorem witness_MemReadGivesTheCellOrFaults_read :
    (32768 : Nat) ≤ 32768 ∧ (mach [21]).mem.cell 32767 = none ∧ (mach [21]).mem.cell 0 = some 21 ∧
      (mach [21]).Inv ∧ memRead (mach [21]).mem 0 = .ok 21 :=
  ⟨by decide, by decide, by decide, inv_mach_noop, rfl⟩

theorem witness_MemReadGivesTheCellOrFaults_outOfRange :
    let s : State := { mach [] with pc := 32768 }
    s.Inv ∧ s.run = .running ∧
      ∃ t, step s = .next t ∧ t.outcome = .faulted (.memoryFault .outOfRange 32768) :=
  step_faults (by decide) (by decide) (by decide) (by decide) rfl rfl (by decide)

theorem witness_MemReadGivesTheCellOrFaults_fetch :
    (mach []).Inv ∧ (mach []).run = .running ∧
      ∃ t, step (mach []) = .next t ∧ t.outcome = .faulted (.memoryFault .unwritten 0) :=
  step_faults (by decide) (by decide) (by decide) (by decide) rfl rfl (by decide)

theorem witness_MemReadGivesTheCellOrFaults_rmem :
    let s := mach [15, 32768, 100]
    s.Inv ∧ s.run = .running ∧
      ∃ t, step s = .next t ∧ t.outcome = .faulted (.memoryFault .unwritten 100) :=
  step_faults (by decide) (by decide) (by decide) (by decide) rfl rfl (by decide)

theorem witness_MemWriteStoresOneCellOrFaults :
    32776 ≤ 32776 ∧ (32775 ≤ 32775 ∧ 32768 ≤ 32768) ∧ (32775 ≤ 32775 ∧ 32767 < 32768) ∧ 1 ≠ 0 ∧
      (mach [21]).mem.wf = true := by decide

theorem witness_FetchReadsAndAdvances :
    memRead (mach [21]).mem (mach [21]).pc.toNat = .ok 21 ∧
      memRead (mach []).mem (mach []).pc.toNat = .error (.memoryFault .unwritten 0) ∧
      ((mach []).run = .running ∧ (mach []).decoded = .error .noOpcodeWord) ∧
      ((mach [9, 32768, 1]).run = .running ∧
        (mach [9, 32768, 1]).decoded = .error (.truncated .add 2)) :=
  ⟨rfl, rfl, ⟨rfl, rfl⟩, rfl, rfl⟩

theorem witness_StepRunsTheDecodedInstruction :
    (mach [1, 32768, 7]).run = .running ∧
      (mach [1, 32768, 7]).decoded = .ok (.set (.reg 0) (.lit 7), []) := ⟨rfl, rfl⟩

theorem witness_UnknownOpcodeRaisesDecodeError :
    ((mach [22]).run = .running ∧ memRead (mach [22]).mem (mach [22]).pc.toNat = .ok 22 ∧
        21 < (22#16).toNat) ∧
      (mach [32775]).run = .running ∧
      memRead (mach [32775]).mem (mach [32775]).pc.toNat = .ok 32775 ∧ 21 < (32775#16).toNat :=
  ⟨⟨rfl, rfl, by decide⟩, rfl, rfl, by decide⟩

theorem witness_HaltedIsTerminal :
    let s : State := { mach [0] with run := .halted .haltInstruction, outcome := .halted }
    s.run = .halted .haltInstruction ∧ Reaches s s := ⟨rfl, .refl _⟩

theorem witness_FaultedStepChangesOnlyThePc :
    (∃ t, step (mach []) = .next t ∧ t.outcome = .faulted (.memoryFault .unwritten 0) ∧
        (mach []).decoded = .error .noOpcodeWord) ∧
      (∃ t, step (mach [22]) = .next t ∧ t.outcome = .faulted (.decodeError 22) ∧
        (mach [22]).decoded = .error (.unknownOpcode 22)) ∧
      (∃ t, step (mach [1]) = .next t ∧ t.outcome = .faulted (.memoryFault .unwritten 1) ∧
        (mach [1]).decoded = .error (.truncated .set 0)) ∧
      ∃ t, step (mach [3, 32768]) = .next t ∧ t.outcome = .faulted .stackUnderflow ∧
        (mach [3, 32768]).decoded = .ok (.pop (.reg 0), []) :=
  ⟨⟨_, rfl, rfl, rfl⟩, ⟨_, rfl, rfl, rfl⟩, ⟨_, rfl, rfl, rfl⟩, _, rfl, rfl, rfl⟩

theorem witness_StepKeepsTheInvariant : (mach [21]).Inv ∧ ∃ t, step (mach [21]) = .next t :=
  ⟨inv_mach_noop, _, rfl⟩

theorem witness_ResetMeetsTheInvariant : imageLegal [32775, 0] = true := by decide

theorem witness_OnlyReachableFaultsAreRaised_badDestination :
    let s := mach [1, 32767, 7]
    s.Inv ∧ s.run = .running ∧
      ∃ t, step s = .next t ∧ t.outcome = .faulted (.operandError .badDestination 32767) :=
  step_faults (by decide) (by decide) (by decide) (by decide) rfl rfl (by decide)

theorem witness_OnlyReachableFaultsAreRaised_outRange :
    let s := mach [19, 128]
    s.Inv ∧ s.run = .running ∧
      ∃ t, step s = .next t ∧ t.outcome = .faulted (.operandError .outRange 128) :=
  step_faults (by decide) (by decide) (by decide) (by decide) rfl rfl (by decide)

theorem witness_OnlyReachableFaultsAreRaised_modZero :
    let s := mach [11, 32768, 7, 0]
    s.Inv ∧ s.run = .running ∧
      ∃ t, step s = .next t ∧ t.outcome = .faulted (.operandError .modZero 0) :=
  step_faults (by decide) (by decide) (by decide) (by decide) rfl rfl (by decide)

theorem witness_OnlyReachableFaultsAreRaised_nonLiteralData :
    let s := mach [15, 32768, 3, 32775]
    s.Inv ∧ s.run = .running ∧
      ∃ t, step s = .next t ∧ t.outcome = .faulted (.operandError .nonLiteralData 32775) :=
  step_faults (by decide) (by decide) (by decide) (by decide) rfl rfl (by decide)

theorem witness_OnlyReachableFaultsAreRaised_returnAddress :
    let s := machAt 32766 17 0
    s.Inv ∧ s.run = .running ∧
      ∃ t, step s = .next t ∧ t.outcome = .faulted (.operandError .returnAddress 32768) :=
  step_faults (by decide) (by decide) (by decide) (by decide) rfl rfl (by decide)

theorem witness_OnlyReachableFaultsAreRaised_stackUnderflow :
    let s := mach [3, 32768]
    s.Inv ∧ s.run = .running ∧ ∃ t, step s = .next t ∧ t.outcome = .faulted .stackUnderflow :=
  step_faults (by decide) (by decide) (by decide) (by decide) rfl rfl (by decide)

theorem witness_OnlyReachableFaultsAreRaised_unwritten :
    let s : State := { mach [] with pc := 32767 }
    s.Inv ∧ s.run = .running ∧
      ∃ t, step s = .next t ∧ t.outcome = .faulted (.memoryFault .unwritten 32767) :=
  step_faults (by decide) (by decide) (by decide) (by decide) rfl rfl (by decide)

theorem witness_OnlyReachableFaultsAreRaised_decodeError :
    let s := mach [22]
    s.Inv ∧ s.run = .running ∧ ∃ t, step s = .next t ∧ t.outcome = .faulted (.decodeError 22) :=
  step_faults (by decide) (by decide) (by decide) (by decide) rfl rfl (by decide)

theorem witness_OnlyTheJumpFamilyAssignsThePc :
    (mach [2, 9]).run = .running ∧ (mach [2, 9]).runs (.push (.lit 9)) ∧
      (Instr.push (.lit 9)).isJump = false ∧ ∃ t, step (mach [2, 9]) = .next t :=
  ⟨rfl, ⟨[], rfl⟩, rfl, _, rfl⟩

theorem witness_OnlyWmemChangesMemory :
    ∃ t, step (mach [16, 100, 66]) = .next t ∧
      t.mem.cell 100 ≠ (mach [16, 100, 66]).mem.cell 100 := ⟨_, rfl, by decide⟩

theorem witness_WrittenCellsStayWritten :
    ∃ t, Reaches (mach [16, 0, 21]) t ∧ (mach [16, 0, 21]).mem.cell 0 ≠ none :=
  ⟨_, reaches_one rfl, by decide⟩

theorem witness_StackChangesOnlyAtItsTop :
    ∃ t, step (mach [2, 9]) = .next t ∧ t.stack = [9] := ⟨_, rfl, by decide⟩

theorem witness_StreamsOnlyGrowAndDrain :
    ∃ t, step (mach [19, 35]) = .next t ∧ t.output = [35] := ⟨_, rfl, by decide⟩

theorem witness_OnlyThreeWaysToHalt :
    (∃ t, step (mach [0]) = .next t ∧ t.run = .halted .haltInstruction) ∧
      (∃ t, step (mach [18]) = .next t ∧ t.run = .halted .returnOnEmptyStack) ∧
      (∃ t, step (mach [20, 32768]) = .next t ∧ t.run = .halted .ioExhausted) ∧
      (mach [0]).run = .running ∧ (mach [18]).run = .running ∧ (mach [20, 32768]).run = .running :=
  ⟨⟨_, rfl, rfl⟩, ⟨_, rfl, rfl⟩, ⟨_, rfl, rfl⟩, rfl, rfl, rfl⟩

theorem witness_CycleCounterCountsRunningSteps :
    (∃ t, step (mach [22]) = .next t ∧ t.supervisor.cycles = 1) ∧
      ∃ t, step { mach [0] with run := .halted .haltInstruction } = .next t ∧ t.supervisor.cycles = 0 :=
  ⟨⟨_, rfl, rfl⟩, _, rfl, rfl⟩

theorem witness_StepsKeepImageAndDebugSets : ∃ t, Reaches (mach [16, 0, 21]) t :=
  ⟨_, reaches_one rfl⟩

theorem witness_SetCopiesTheValue : value (machWith [] 12 0 0 []) (.reg 0) = .ok 12 := by rfl
theorem witness_PushAddsTheTop : value (machWith [] 4 0 0 [9]) (.reg 0) = .ok 4 := by rfl

theorem witness_PopMovesTheTopOrUnderflows :
    (machWith [] 0 0 0 [4, 9]).stack = 4 :: [9] ∧ (mach []).stack = [] := ⟨rfl, rfl⟩

theorem witness_EqWritesOneOrZero :
    value (machWith [] 7 7 8 []) (.reg 0) = .ok 7 ∧ value (machWith [] 7 7 8 []) (.reg 1) = .ok 7 ∧
      value (machWith [] 7 7 8 []) (.reg 2) = .ok 8 := ⟨rfl, rfl, rfl⟩
theorem witness_GtComparesUnsigned :
    value (machWith [] 32767 0 0 []) (.reg 0) = .ok 32767 ∧
      value (machWith [] 32767 0 0 []) (.lit 32767) = .ok 32767 ∧
      value (machWith [] 32767 0 0 []) (.lit 0) = .ok 0 := ⟨rfl, rfl, rfl⟩
theorem witness_JmpAssignsThePc : value (machWith [] 300 0 0 []) (.reg 0) = .ok 300 := by rfl
theorem witness_JtAndJfAreComplements :
    value (machWith [] 0 1 0 []) (.reg 0) = .ok 0 ∧ value (machWith [] 0 1 0 []) (.reg 1) = .ok 1 ∧
      value (machWith [] 0 1 0 []) (.lit 6) = .ok 6 := ⟨rfl, rfl, rfl⟩

theorem witness_CallPushesTheReturnAddress :
    value (mach []) (.lit 6) = .ok 6 ∧ ({ mach [] with pc := 32767 } : State).pc.toNat ≤ 32767 ∧
      32768 ≤ ({ mach [] with pc := 32768 } : State).pc.toNat := ⟨rfl, by decide, by decide⟩

theorem witness_RetReturnsOrHalts :
    (machWith [] 0 0 0 [2]).stack = 2 :: [] ∧ (mach []).stack = [] := ⟨rfl, rfl⟩

theorem witness_RetUndoesCall :
    ∃ t, exec (.call (.lit 6)) (mach []) = .next t ∧ t.outcome = .continued ∧
      (machWith [] 5 0 0 [0]).stack = t.stack := ⟨_, rfl, rfl, rfl⟩

theorem witness_AddIsModulo32768 :
    value (machWith [] 32767 1 0 []) (.reg 0) = .ok 32767 ∧
      value (machWith [] 32767 1 0 []) (.reg 1) = .ok 1 := ⟨rfl, rfl⟩
theorem witness_MultIsModulo32768 :
    value (machWith [] 182 182 0 []) (.reg 0) = .ok 182 ∧
      value (machWith [] 182 182 0 []) (.reg 1) = .ok 182 := ⟨rfl, rfl⟩
theorem witness_ModIsTheRemainder :
    value (machWith [] 7 3 0 []) (.reg 0) = .ok 7 ∧ value (machWith [] 7 3 0 []) (.reg 1) = .ok 3 ∧
      value (machWith [] 7 3 0 []) (.reg 2) = .ok 0 ∧ (7#15).toNat = 2 * (3#15).toNat + 1 ∧
      1 < (3#15).toNat ∧ (0#15).toNat = 0 := ⟨rfl, rfl, rfl, by decide, by decide, by decide⟩
theorem witness_AndOrActBitByBit :
    value (machWith [] 21845 13107 0 []) (.reg 0) = .ok 21845 ∧
      value (machWith [] 21845 13107 0 []) (.reg 1) = .ok 13107 ∧ 14 < 15 := ⟨rfl, rfl, by decide⟩
theorem witness_NotIsThe15BitComplement : value (machWith [] 21845 0 0 []) (.reg 0) = .ok 21845 := by
  rfl
theorem witness_AluKeepsTheLow15Bits : aluMod 7 3 = some 1 := by decide

theorem witness_RmemLoadsALiteral :
    let s := machWith [15, 32768, 32767, 32768] 0 1 2 []
    (value s (.reg 2) = .ok 2 ∧ s.mem.cell 2 = some 32767 ∧ (32767#16).toNat ≤ 32767) ∧
      (value s (.lit 32767) = .ok 32767 ∧ s.mem.cell 32767 = none) ∧
      value s (.reg 1) = .ok 1 ∧ s.mem.cell 1 = some 32768 ∧ 32768 ≤ (32768#16).toNat :=
  ⟨⟨rfl, by decide, by decide⟩, ⟨rfl, by decide⟩, rfl, by decide, by decide⟩

theorem witness_WmemStoresTheLiteral :
    value (machWith [] 32767 9 0 []) (.reg 0) = .ok 32767 ∧
      value (machWith [] 32767 9 0 []) (.reg 1) = .ok 9 := ⟨rfl, rfl⟩

theorem witness_OutEmitsBelow128 :
    (value (mach []) (.lit 127) = .ok 127 ∧ (127#15).toNat < 128) ∧
      value (machWith [] 128 0 0 []) (.reg 0) = .ok 128 ∧ 128 ≤ (128#15).toNat :=
  ⟨⟨rfl, by decide⟩, rfl, by decide⟩

theorem witness_InTakesOneUnitOrHalts :
    ({ mach [] with input := [104, 105] } : State).input = 104 :: [105] ∧ (mach []).input = [] :=
  ⟨rfl, rfl⟩

theorem witness_BadDestinationComesFirst :
    ((Instr.mod (.lit 5) (.lit 1) (.lit 0)).destination = some (.lit 5) ∧
        (Operand.lit 5).okDest = false) ∧
      (Instr.pop (.invalid 32776)).destination = some (.invalid 32776) ∧
      (Operand.invalid 32776).okDest = false := by decide

theorem witness_InvalidValueWordFaults :
    (∀ r, (Instr.add (.reg 0) (.lit 1) (.invalid 32776)).destination = some r → r.okDest = true) ∧
      ((Instr.add (.reg 0) (.lit 1) (.invalid 32776)).operands.find? fun o => !o.okValue) =
        some (.invalid 32776) :=
  ⟨fun r h => by cases h; rfl, by decide⟩

theorem witness_PushStepFromFetchToOutcome :
    let s := mach [2, 32768]
    let u := mach [2]
    (s.Inv ∧ s.run = .running ∧ memRead s.mem s.pc.toNat = .ok 2 ∧
        memRead s.mem (s.pc.toNat + 1) = .ok 32768) ∧
      u.Inv ∧ u.run = .running ∧ memRead u.mem u.pc.toNat = .ok 2 ∧
      memRead u.mem (u.pc.toNat + 1) = .error (.memoryFault .unwritten 1) :=
  ⟨⟨inv_of (by decide) (by decide) (by decide) (by decide) rfl rfl, rfl, rfl, rfl⟩,
    inv_of (by decide) (by decide) (by decide) (by decide) rfl rfl, rfl, rfl, rfl⟩

theorem witness_JmpStepFromFetchToOutcome :
    let s := mach [6, 0]
    let u := machAt 32767 6 0
    (s.Inv ∧ s.run = .running ∧ memRead s.mem s.pc.toNat = .ok 6 ∧
        memRead s.mem (s.pc.toNat + 1) = .ok 0 ∧ (0#15).toNat = s.pc.toNat) ∧
      ({ u with mem := [(32767, 6)] } : State).Inv ∧ u.run = .running ∧
      memRead [(32767, 6)] u.pc.toNat = .ok 6 ∧
      memRead [(32767, 6)] (u.pc.toNat + 1) = .error (.memoryFault .outOfRange 32768) :=
  ⟨⟨inv_of (by decide) (by decide) (by decide) (by decide) rfl rfl, rfl, rfl, rfl, by decide⟩,
    inv_of (by decide) (by decide) (by decide) (by decide) rfl rfl, rfl, rfl, rfl⟩

/-- An image of any length. -/
theorem exists_image (n : Nat) : ∃ ws : List Word, ws.length = n ∧ ∀ w ∈ ws, w.toNat ≤ 32775 :=
  ⟨List.replicate n 0, List.length_replicate, fun w h => by simp [List.eq_of_mem_replicate h]⟩

theorem witness_LoadFillsMemoryOrRefuses_lengths :
    (∃ ws : List Word, 32768 < ws.length) ∧
      ∃ ws : List Word, ws.length ≤ 32768 ∧ ∀ w ∈ ws, w.toNat ≤ 32775 := by
  obtain ⟨ws, h, -⟩ := exists_image 32769
  obtain ⟨vs, hv, hl⟩ := exists_image 32768
  exact ⟨⟨ws, by omega⟩, vs, by omega, hl⟩

theorem witness_LoadFillsMemoryOrRefuses_words :
    (([32775, 32776] : List Word).length ≤ 32768 ∧
        ∃ w ∈ ([32775, 32776] : List Word), 32776 ≤ w.toNat) ∧
      ([0, 32775] : List Word).length ≤ 32768 ∧
      ∀ w ∈ ([0, 32775] : List Word), w.toNat ≤ 32775 :=
  ⟨⟨by simp, 32776, by simp, by simp⟩, by simp, by simp⟩

theorem witness_ResetAfterAnyRunRestoresTheLoad :
    ∃ s0 t, load [16, 0, 21] State.reset = .ok s0 ∧ Reaches s0 t ∧ t.mem.cell 0 = some 21 :=
  ⟨_, _, rfl, reaches_one rfl, by decide⟩

theorem witness_CommandsKeepTheInvariant :
    (mach [21]).Inv ∧ (execute 1 (.breakpoint 0) (mach [21])).2 = .error .badAddress :=
  ⟨inv_mach_noop, by decide⟩

theorem witness_DumpThenRestoreReproduces :
    (mach [21]).Inv ∧ (∀ i : RegIdx, Part.run ≠ .reg i) ∧ Part.run ∉ [Part.pc, Part.stack] :=
  ⟨inv_mach_noop, by decide, by decide⟩

theorem witness_RunStopsAtBreakpoints :
    let s : State := { mach [21, 21, 21] with supervisor := { Debug.initial with breakpoints := [2] } }
    (∃ u t, advance 1 s = (u, .cyclesDone) ∧ step u = .next t ∧ t.outcome = .continued ∧
        t.pc.toNat ∈ u.supervisor.breakpoints) ∧
      (∃ t, advance 5 s = (t, .stopped .breakpoint) ∧ t.pc = 2) ∧
      s.run = .running ∧ 0 < 1 ∧ 1 ≤ 2 ∧ ∃ t, advance 2 (mach [21, 21]) = (t, .cyclesDone) :=
  ⟨⟨_, _, rfl, rfl, rfl, by decide⟩, ⟨_, rfl, rfl⟩, rfl, by decide, by decide, _, rfl⟩

theorem witness_ImageBytesAreLittleEndian :
    wordsOfBytes [0x08, 0x80] = some [0x8008] ∧ ([0x8008] : List Word)[0]? = some 0x8008 ∧
      ([0x13] : List Byte).length % 2 = 1 := by decide

end Sys2Proof.Tests
end

section
/-! PROOFS. The classes of an operand word by the number that the word is (00_scope.md rule R5) and
by its bits (rule R6). -/

namespace Sys2Proof

/-- A word decodes to exactly the class whose word it is. -/
theorem decodeOperand_eq_iff {w : Word} {o : Operand} :
    decodeOperand w = o ↔ o.isClass = true ∧ o.word = w := by
  constructor
  · rintro rfl
    exact ⟨isClass_decodeOperand w, word_decodeOperand w⟩
  · rintro ⟨hclass, rfl⟩
    exact decodeOperand_word hclass

theorem Operand.toNat_word_lit (v : Lit) : (Operand.lit v).word.toNat = v.toNat :=
  BitVec.toNat_setWidth_of_le (by decide)

theorem Operand.toNat_word_reg (i : RegIdx) : (Operand.reg i).word.toNat = 32768 + i.val := by
  have hi := regIdx_lt i
  rw [Operand.word, BitVec.toNat_ofNat]
  omega

/-- The first class of rule R5, by number. -/
theorem decodeOperand_eq_lit_iff {w : Word} {v : Lit} :
    decodeOperand w = .lit v ↔ w.toNat = v.toNat := by
  rw [decodeOperand_eq_iff, ← BitVec.toNat_inj, Operand.toNat_word_lit, eq_comm (a := v.toNat)]
  exact and_iff_right rfl

/-- The second class of rule R5, by number. -/
theorem decodeOperand_eq_reg_iff {w : Word} {i : RegIdx} :
    decodeOperand w = .reg i ↔ w.toNat = 32768 + i.val := by
  rw [decodeOperand_eq_iff, ← BitVec.toNat_inj, Operand.toNat_word_reg,
    eq_comm (a := 32768 + i.val)]
  exact and_iff_right rfl

/-- The invalid encodings, by number. -/
theorem exists_decodeOperand_eq_invalid_iff {w : Word} :
    (∃ x, decodeOperand w = .invalid x) ↔ 32776 ≤ w.toNat := by
  constructor
  · rintro ⟨x, hx⟩
    obtain ⟨hclass, rfl⟩ := decodeOperand_eq_iff.mp hx
    exact of_decide_eq_true hclass
  · exact fun h => ⟨w, decodeOperand_invalid h⟩

/-- Settles O3: each range has its class by the decoder's law for that range. -/
theorem wordsSplitIntoThreeClasses : Obligations.WordsSplitIntoThreeClasses := by
  intro w
  refine ⟨fun hlit => ?_, fun hlow hhigh => ?_, decodeOperand_invalid⟩
  · have hv : (w.setWidth 15).toNat = w.toNat := by
      rw [BitVec.toNat_setWidth]
      omega
    exact ⟨w.setWidth 15, hv, decodeOperand_eq_lit_iff.mpr hv.symm⟩
  · have hi : w.toNat - 32768 < Config.nregs := by
      rw [Config.nregs]
      omega
    have hw : w.toNat = 32768 + (w.toNat - 32768) := by omega
    exact ⟨⟨w.toNat - 32768, hi⟩, rfl, decodeOperand_eq_reg_iff.mpr hw⟩

/-- Bit 15 separates the literals from the words above them. -/
theorem Word.bit15_eq_decide (w : Word) : w.getLsbD 15 = decide (32768 ≤ w.toNat) :=
  (BitVec.msb_eq_getLsbD_last w).symm.trans (BitVec.msb_eq_decide w)

/-- Bits 14 to 0, as a number. -/
theorem Word.toNat_bits14to0 (w : Word) : (w.extractLsb' 0 15).toNat = w.toNat % 32768 := by
  rw [BitVec.extractLsb'_toNat, Nat.shiftRight_zero]

/-- Bits 2 to 0, as a number. -/
theorem Word.toNat_bits2to0 (w : Word) : (w.extractLsb' 0 3).toNat = w.toNat % 8 := by
  rw [BitVec.extractLsb'_toNat, Nat.shiftRight_zero]

/-- Bits 14 to 3 are 0 when the word, bit 15 aside, is below 8. -/
theorem Word.bits14to3_eq_zero_iff (w : Word) :
    w.extractLsb' 3 12 = 0 ↔ w.toNat % 32768 < 8 := by
  rw [← BitVec.toNat_inj, BitVec.extractLsb'_toNat, Nat.shiftRight_eq_div_pow]
  simp only [BitVec.ofNat_eq_ofNat, BitVec.toNat_ofNat]
  omega

/-- Settles O4: the classes by number, with each bit condition read as arithmetic on the number. -/
theorem wordClassesByBits : Obligations.WordClassesByBits := by
  intro w
  have hw := w.isLt
  simp only [Word.bit15_eq_decide, Word.bits14to3_eq_zero_iff, Word.toNat_bits2to0,
    decide_eq_true_eq, decide_eq_false_iff_not, ne_eq]
  refine ⟨fun v => ?lit, fun i => ?reg, ?invalid⟩
  case lit =>
    have hv := v.isLt
    rw [decodeOperand_eq_lit_iff, ← BitVec.toNat_inj (x := v), Word.toNat_bits14to0]
    omega
  case reg =>
    have hi := regIdx_lt i
    rw [decodeOperand_eq_reg_iff]
    omega
  case invalid =>
    rw [exists_decodeOperand_eq_invalid_iff]
    omega

end Sys2Proof
end

section
/-! PROOFS. Everything one step can do, said once (30_encoding.md rule R77): the words it reads, and
then one of four ends. -/

namespace Sys2Proof

/-- MAX_OPERANDS as a numeral. -/
theorem Opcode.operandCount_le_three (op : Opcode) : op.operandCount ≤ 3 := op.operandCount_le

theorem Instr.length_assemble (op : Opcode) (ws : List Word) :
    (op.assemble ws).length = 1 + op.operandCount := by
  rw [Instr.length, Opcode.opcode_assemble]

end Sys2Proof

namespace Sys2Proof.Machine

/-! ### The words at `pc` -/

theorem Memory.wordsFrom_of_read {m : Memory} {a : Nat} {w : Word} (h : memRead m a = .ok w)
    (n : Nat) : m.wordsFrom a (n + 1) = w :: m.wordsFrom (a + 1) n := by
  simp only [Memory.wordsFrom, h]

/-- Words that can all be read lie in the address space. -/
theorem Memory.add_le_of_length_wordsFrom {m : Memory} {a n : Nat}
    (h : (m.wordsFrom a n).length = n) : n = 0 ∨ a + n ≤ 32768 := by
  induction n generalizing a with
  | zero => exact .inl rfl
  | succ n ih =>
    simp only [Memory.wordsFrom] at h
    cases hr : memRead m a with
    | error f => simp [hr] at h
    | ok w =>
      have ha := (memRead_ok.1 hr).1
      have := ih (a := a + 1) (by simpa [hr] using h)
      omega

/-- How many of fewer words can be read. -/
theorem Memory.length_wordsFrom_of_le (m : Memory) (a : Nat) {k n : Nat} (h : k ≤ n) :
    (m.wordsFrom a k).length = min k (m.wordsFrom a n).length := by
  rw [← Memory.wordsFrom_take m a h, List.length_take]

/-- The first `k` words at `pc` can all be read. -/
def State.canFetch (s : State) (k : Nat) : Prop := (s.mem.wordsFrom s.pc.toNat k).length = k

/-- The advance past words that can be read does not wrap. -/
theorem State.canFetch.toNat_pc {s : State} {k : Nat} (h : s.canFetch k) :
    (s.fetched k).pc.toNat = s.pc.toNat + k := by
  have hk := Memory.add_le_of_length_wordsFrom h
  have hpc := s.pc.isLt
  rw [State.fetched_pc, BitVec.toNat_add, BitVec.toNat_ofNat]
  omega

/-- Fetching keeps `pc` in its range (10_state.md rule R16). -/
theorem State.canFetch.pc_le {s : State} {k : Nat} (h : s.canFetch k)
    (hpc : s.pc.toNat ≤ 32768) : (s.fetched k).pc.toNat ≤ 32768 := by
  have hk := Memory.add_le_of_length_wordsFrom h
  rw [h.toNat_pc]
  omega

/-! ### The decoder on the words at `pc`, in the order of the fetches -/

theorem State.decoded_of_unread {s : State} {f : Fault}
    (h : memRead s.mem s.pc.toNat = .error f) : s.decoded = .error .noOpcodeWord := by
  simp [State.decoded, Memory.wordsFrom, h, decode]

theorem State.decoded_of_unknown {s : State} {w : Word} (h : memRead s.mem s.pc.toNat = .ok w)
    (hop : Opcode.ofWord w = none) : s.decoded = .error (.unknownOpcode w) := by
  simp only [State.decoded, Memory.wordsFrom_of_read h, decode, hop]

/-- Once the opcode is read, the decoder looks at the operand words after it. -/
theorem State.decoded_of_opcode {s : State} {w : Word} {op : Opcode}
    (h : memRead s.mem s.pc.toNat = .ok w) (hop : Opcode.ofWord w = some op) :
    s.decoded =
      let rest := s.mem.wordsFrom (s.pc.toNat + 1) 3
      if rest.length < op.operandCount then .error (.truncated op rest.length)
      else .ok (op.assemble (rest.take op.operandCount), rest.drop op.operandCount) := by
  simp only [State.decoded, Memory.wordsFrom_of_read h, decode, hop]

/-! ### The faults of a step and its ends -/

/-- The ways a step faults, with the number of words fetched before: a word that cannot be read, an
opcode word that is no opcode, and the faults of the instruction itself (60_exceptions.md
rule R210). -/
inductive StepFault (s : State) : Nat → Fault → Prop where
  | noOpcodeWord {f : Fault} (hdec : s.decoded = .error .noOpcodeWord)
      (hread : memRead s.mem s.pc.toNat = .error f) : StepFault s 0 f
  | truncated {f : Fault} (op : Opcode) (got : Nat)
      (hdec : s.decoded = .error (.truncated op got))
      (hread : memRead s.mem (s.pc.toNat + (1 + got)) = .error f) : StepFault s (1 + got) f
  | unknownOpcode (w : Word) (hdec : s.decoded = .error (.unknownOpcode w))
      (hread : memRead s.mem s.pc.toNat = .ok w) (hop : Opcode.ofWord w = none) :
      StepFault s 1 (.decodeError w.toNat)
  | raises {f : Fault} (i : Instr) (hi : s.runs i) (h : Raises i (s.fetched i.length) f) :
      StepFault s i.length f

/-- Everything a step can lead to: a halted machine stays, and a running one faults, halts, or
completes an instruction. -/
inductive StepTo (s : State) : State → Prop where
  | stays (c : HaltCause) (hrun : s.run = .halted c) : StepTo s { s with outcome := .halted }
  | faults (k : Nat) (f : Fault) (hrun : s.run = .running) (hk : s.canFetch k)
      (h : StepFault s k f) :
      StepTo s { s.fetched k with outcome := .faulted f, firstFault := s.firstFault.or (some f) }
  | halts (i : Instr) (c : HaltCause) (hrun : s.run = .running) (hi : s.runs i)
      (hk : s.canFetch i.length) (h : Halts i (s.fetched i.length) c) :
      StepTo s { s.fetched i.length with run := .halted c, outcome := .halted }
  | does (i : Instr) (u : State) (hrun : s.run = .running) (hi : s.runs i)
      (hk : s.canFetch i.length) (h : Does i (s.fetched i.length) u) :
      StepTo s { u with outcome := .continued }

/-! ### The fetch of the operand words -/

/-- Fetching `k` more words after the opcode word is fetching `1 + k` words. -/
theorem State.fetched_one_add (s : State) (k : Nat) :
    { s.fetched 1 with pc := (s.fetched 1).pc + BitVec.ofNat 16 k } = s.fetched (1 + k) := by
  simp only [State.fetched, State.mk.injEq, and_true, true_and]
  rw [Nat.add_comm 1 k]
  exact BitVec_add_assoc_ofNat s.pc k

section
variable {s : State} {w : Word} {op : Opcode} (hread : memRead s.mem s.pc.toNat = .ok w)
include hread

/-- The opcode word and the `k` words after it can be read. -/
theorem State.canFetch_one_add {k : Nat}
    (hk : (s.mem.wordsFrom (s.pc.toNat + 1) k).length = k) : s.canFetch (1 + k) := by
  rw [State.canFetch, Nat.add_comm 1 k, Memory.wordsFrom_of_read hread, List.length_cons, hk]

theorem State.fetched_one_pc_toNat : (s.fetched 1).pc.toNat = s.pc.toNat + 1 :=
  (State.canFetch_one_add (k := 0) hread rfl).toNat_pc

/-- When an operand word cannot be read, the words at `pc` are a truncated instruction. -/
theorem stepFault_of_fetchMany (hop : Opcode.ofWord w = some op) {f : Fault} {u : State}
    (h : fetchMany op.operandCount (s.fetched 1) = .error (f, u)) :
    ∃ k, u = s.fetched k ∧ s.canFetch k ∧ StepFault s k f := by
  obtain ⟨got, hlt, hlen, hfault, rfl, -⟩ := fetchMany_error h
  rw [State.fetched_mem, State.fetched_one_pc_toNat hread] at hlen hfault
  have hmin := Memory.length_wordsFrom_of_le s.mem (s.pc.toNat + 1) (Nat.le_of_lt hlt)
  have hmin3 := Memory.length_wordsFrom_of_le s.mem (s.pc.toNat + 1) op.operandCount_le_three
  have hgot : (s.mem.wordsFrom (s.pc.toNat + 1) got).length = got := by omega
  have hgot3 : (s.mem.wordsFrom (s.pc.toNat + 1) 3).length = got := by omega
  refine ⟨1 + got, s.fetched_one_add got, State.canFetch_one_add hread hgot,
    .truncated op got ?_ (by rwa [← Nat.add_assoc])⟩
  simp [State.decoded_of_opcode hread hop, hgot3, hlt]

/-- When every operand word can be read, the words at `pc` decode to the instruction. -/
theorem runs_of_fetchMany (hop : Opcode.ofWord w = some op) {ws : List Word} {u : State}
    (h : fetchMany op.operandCount (s.fetched 1) = .ok (ws, u)) :
    u = s.fetched (op.assemble ws).length ∧ s.canFetch (op.assemble ws).length ∧
      s.runs (op.assemble ws) := by
  obtain ⟨hws, hlen, rfl, -⟩ := fetchMany_ok h
  rw [State.fetched_mem, State.fetched_one_pc_toNat hread] at hws
  have htake3 := Memory.wordsFrom_take s.mem (s.pc.toNat + 1) op.operandCount_le_three
  have hmin3 := Memory.length_wordsFrom_of_le s.mem (s.pc.toNat + 1) op.operandCount_le_three
  rw [hws] at htake3 hmin3
  have hge : ¬ (s.mem.wordsFrom (s.pc.toNat + 1) 3).length < op.operandCount := by omega
  rw [Instr.length_assemble]
  refine ⟨s.fetched_one_add _, State.canFetch_one_add hread (by rw [hws, hlen]),
    (s.mem.wordsFrom (s.pc.toNat + 1) 3).drop op.operandCount, ?_⟩
  simp only [State.decoded_of_opcode hread hop, hge, if_false, htake3]

end

/-! ### The step, one equation per way through the cycle -/

/-- A step of a halted machine. -/
theorem step_of_halted {s : State} {c : HaltCause} (h : s.run = .halted c) :
    step s = .next { s with outcome := .halted } := by
  simp [step, stepState, h]

/-- The fetch of the opcode word. -/
theorem fetch_countStep {s : State} {w : Word} (hread : memRead s.mem s.pc.toNat = .ok w) :
    fetch s.countStep = .ok (w, s.fetched 1) := by
  simp [fetch, hread, State.fetched]

section
variable {s : State} (hrun : s.run = .running)
include hrun

theorem step_eq_cycle : step s = cycle s.countStep := by
  simp only [step, stepState, hrun]

theorem step_of_unread {f : Fault} (hread : memRead s.mem s.pc.toNat = .error f) :
    step s = raise f (s.fetched 0) := by
  have hf : fetch s.countStep = .error f := (fetch_error (s := s.countStep)).2 hread
  simp only [step_eq_cycle hrun, cycle, hf]
  simp [State.fetched, State.countStep]

variable {w : Word} (hread : memRead s.mem s.pc.toNat = .ok w)
include hread

theorem step_of_unknownOpcode (hop : Opcode.ofWord w = none) :
    step s = raise (.decodeError w.toNat) (s.fetched 1) := by
  simp only [step_eq_cycle hrun, cycle, fetch_countStep hread, hop]

variable {op : Opcode} (hop : Opcode.ofWord w = some op) {u : State}
include hop

theorem step_of_operands_unread {f : Fault}
    (hm : fetchMany op.operandCount (s.fetched 1) = .error (f, u)) : step s = raise f u := by
  simp only [step_eq_cycle hrun, cycle, fetch_countStep hread, hop, hm]

theorem step_of_operands_read {ws : List Word}
    (hm : fetchMany op.operandCount (s.fetched 1) = .ok (ws, u)) :
    step s = exec (op.assemble ws) u := by
  simp only [step_eq_cycle hrun, cycle, fetch_countStep hread, hop, hm]

end

/-- A step of a running machine up to the execution: it faults with the words it could fetch, or it
executes the instruction that its words decode to. -/
theorem step_of_running {s : State} (hrun : s.run = .running) :
    (∃ k f, s.canFetch k ∧ StepFault s k f ∧ step s = raise f (s.fetched k)) ∨
    (∃ i, s.canFetch i.length ∧ s.runs i ∧ step s = exec i (s.fetched i.length)) := by
  cases hread : memRead s.mem s.pc.toNat with
  | error f =>
    exact .inl ⟨0, f, rfl, .noOpcodeWord (State.decoded_of_unread hread) hread,
      step_of_unread hrun hread⟩
  | ok w =>
    cases hop : Opcode.ofWord w with
    | none =>
      exact .inl ⟨1, _, State.canFetch_one_add (k := 0) hread rfl,
        .unknownOpcode w (State.decoded_of_unknown hread hop) hread hop,
        step_of_unknownOpcode hrun hread hop⟩
    | some op =>
      rcases hm : fetchMany op.operandCount (s.fetched 1) with ⟨f, u⟩ | ⟨ws, u⟩
      · obtain ⟨k, rfl, hk, hfault⟩ := stepFault_of_fetchMany hread hop hm
        exact .inl ⟨k, f, hk, hfault, step_of_operands_unread hrun hread hop hm⟩
      · obtain ⟨rfl, hk, hi⟩ := runs_of_fetchMany hread hop hm
        exact .inr ⟨_, hk, hi, step_of_operands_read hrun hread hop hm⟩

/-- Everything a step can lead to, from the step itself. -/
theorem stepTo_of_step {s t : State} (h : step s = .next t) : StepTo s t := by
  cases hrun : s.run with
  | halted c =>
    rw [step_of_halted hrun] at h
    cases h
    exact .stays c hrun
  | running =>
    rcases step_of_running hrun with ⟨k, f, hk, hf, hs⟩ | ⟨i, hk, hi, hs⟩
    · rw [hs] at h
      cases h
      exact .faults k f hrun hk hf
    · rw [hs] at h
      generalize hr : exec i (s.fetched i.length) = r at h
      have he := exec_effect i (s.fetched i.length)
      rw [hr] at he
      cases he with
      | raises f hf => cases h; exact .faults _ f hrun hk (.raises i hi hf)
      | halts c hc => cases h; exact .halts i c hrun hi hk hc
      | does u hu => cases h; exact .does i u hrun hi hk hu

end Sys2Proof.Machine
end

section
/-! PROOFS. What every step keeps: the invariant (10_state.md rule R30), and the parts of the state
that only certain instructions change (rule R15, R17, R20, R21, R25, R27, R28). -/

namespace Sys2Proof.Machine

/-! ### What a completing instruction changes -/

/-- No instruction touches the run state, the kept image or the debug controller. -/
theorem Does.keeps {i : Instr} {s t : State} (h : Does i s t) :
    t.run = s.run ∧ t.program = s.program ∧ t.supervisor = s.supervisor := by
  cases h <;> simp [apply_ite State.run, apply_ite State.program, apply_ite State.supervisor]

/-- Only a jump assigns `pc`, and it assigns a literal. -/
theorem Does.pc_cases {i : Instr} {s t : State} (h : Does i s t) :
    t.pc = s.pc ∨ i.isJump = true ∧ ∃ v : Lit, t.pc = v.setWidth 16 := by
  cases h with
  | jmp a v => exact .inr ⟨rfl, v, rfl⟩
  | jt a b va vb =>
    split
    · exact .inr ⟨rfl, vb, rfl⟩
    · exact .inl rfl
  | jf a b va vb =>
    split
    · exact .inr ⟨rfl, vb, rfl⟩
    · exact .inl rfl
  | call a ra v => exact .inr ⟨rfl, v, rfl⟩
  | ret v rest => exact .inr ⟨rfl, v, rfl⟩
  | _ => exact .inl rfl

/-- Only `wmem` stores, at the value of its first operand the value of its second. -/
theorem Does.mem_cases {i : Instr} {s t : State} (h : Does i s t) :
    t.mem = s.mem ∨ ∃ x y va vb, i = .wmem x y ∧ value s x = .ok va ∧ value s y = .ok vb ∧
      t.mem = s.mem.put va.toNat (BitVec.ofNat 16 vb.toNat) := by
  cases h with
  | store x y va vb hx hy => exact .inr ⟨x, y, va, vb, rfl, hx, hy, rfl⟩
  | _ => exact .inl (by simp [apply_ite State.mem])

/-- Only `push` and `call` add a top to the stack, and only `pop` and `ret` take it. -/
theorem Does.stack_cases {i : Instr} {s t : State} (h : Does i s t) :
    t.stack = s.stack ∨
    (∃ a, i = .push a ∨ i = .call a) ∧ (∃ v, t.stack = v :: s.stack) ∨
    ((∃ r, i = .pop r) ∨ i = .ret) ∧ ∃ v, s.stack = v :: t.stack := by
  cases h with
  | push a v => exact .inr (.inl ⟨⟨a, .inl rfl⟩, v, rfl⟩)
  | call a ra v => exact .inr (.inl ⟨⟨a, .inr rfl⟩, ra, rfl⟩)
  | pop d v rest hs => exact .inr (.inr ⟨.inl ⟨_, rfl⟩, v, hs⟩)
  | ret v rest hs => exact .inr (.inr ⟨.inr rfl, v, hs⟩)
  | _ => exact .inl (by simp [apply_ite State.stack])

/-- Only `out` appends to the output. -/
theorem Does.output_cases {i : Instr} {s t : State} (h : Does i s t) :
    t.output = s.output ∨ (∃ a, i = .out a) ∧ ∃ c, t.output = s.output ++ [c] := by
  cases h with
  | out a v => exact .inr ⟨⟨a, rfl⟩, _, rfl⟩
  | _ => exact .inl (by simp [apply_ite State.output])

/-- Only `in` takes the first input unit. -/
theorem Does.input_cases {i : Instr} {s t : State} (h : Does i s t) :
    t.input = s.input ∨ (∃ r, i = .inp r) ∧ ∃ c, s.input = c :: t.input := by
  cases h with
  | inp d c rest hs => exact .inr ⟨⟨_, rfl⟩, c, hs⟩
  | _ => exact .inl (by simp [apply_ite State.input])

/-! ### What a step changes -/

/-- A step keeps the kept image and the sets of the debug controller. -/
theorem StepTo.keeps {s t : State} (h : StepTo s t) :
    t.program = s.program ∧ t.supervisor.breakpoints = s.supervisor.breakpoints ∧
      t.supervisor.breakops = s.supervisor.breakops ∧
      t.supervisor.watches = s.supervisor.watches := by
  cases h with
  | does i u hrun hi hk h =>
    obtain ⟨-, hprogram, hsupervisor⟩ := h.keeps
    simp [hprogram, hsupervisor]
  | _ => exact ⟨rfl, rfl, rfl, rfl⟩

/-- A step leaves memory as it is or stores a literal at the address that a literal names. -/
theorem StepTo.mem_cases {s t : State} (h : StepTo s t) :
    t.mem = s.mem ∨ ∃ x y va vb, s.run = .running ∧ s.runs (.wmem x y) ∧ value s x = .ok va ∧
      value s y = .ok vb ∧ t.mem = s.mem.put va.toNat (BitVec.ofNat 16 vb.toNat) := by
  cases h with
  | does i u hrun hi hk h =>
    rcases h.mem_cases with hmem | ⟨x, y, va, vb, rfl, hx, hy, hmem⟩
    · exact .inl hmem
    · have hregs : (s.fetched (Instr.wmem x y).length).regs = s.regs := rfl
      rw [value_congr hregs] at hx hy
      exact .inr ⟨x, y, va, vb, hrun, hi, hx, hy, hmem⟩
  | _ => exact .inl rfl

/-- A step leaves `pc` in its range (10_state.md rule R16). -/
theorem StepTo.pc_le {s t : State} (h : StepTo s t) (hpc : s.pc.toNat ≤ 32768) :
    t.pc.toNat ≤ 32768 := by
  cases h with
  | stays => exact hpc
  | faults k f hrun hk => exact hk.pc_le hpc
  | halts i c hrun hi hk => exact hk.pc_le hpc
  | does i u hrun hi hk h =>
    rcases h.pc_cases with hu | ⟨-, v, hu⟩
    · exact hu ▸ hk.pc_le hpc
    · have hv := v.isLt
      simp only [hu, BitVec.toNat_setWidth]
      omega

/-- After a step the outcome is Halted exactly when the machine is, and a fault is on record. -/
theorem StepTo.outcome_run {s t : State} (h : StepTo s t) :
    (t.outcome = .halted ↔ t.run ≠ .running) ∧
      ∀ f, t.outcome = .faulted f → t.firstFault ≠ none := by
  cases h with
  | stays c hrun => simp [hrun]
  | faults k f hrun => simp [hrun]
  | halts => simp
  | does i u hrun hi hk h =>
    obtain ⟨hu, -⟩ := h.keeps
    simp [hu, hrun]

/-- The store that `wmem` makes keeps the canonical form and legal words. -/
theorem Memory.put_lit_keeps (m : Memory) (va vb : Lit) :
    (m.wf = true → (m.put va.toNat (BitVec.ofNat 16 vb.toNat)).wf = true) ∧
      (m.legal = true → (m.put va.toNat (BitVec.ofNat 16 vb.toNat)).legal = true) := by
  have ha := va.isLt
  have hb := vb.isLt
  exact memWrite_keeps (memWrite_legal (by omega) (by omega))

/-- Settles O18: the store keeps memory legal, the fetches and the jumps keep `pc` in range, and the
end of the step records outcome, run state and fault together. -/
theorem stepKeepsTheInvariant : Obligations.StepKeepsTheInvariant := by
  intro s t hs hstep
  have h := stepTo_of_step hstep
  have hmem : t.mem.wf = true ∧ t.mem.legal = true := by
    rcases h.mem_cases with hm | ⟨x, y, va, vb, -, -, -, -, hm⟩
    · exact hm ▸ ⟨hs.memWf, hs.memLegal⟩
    · obtain ⟨hwf, hlegal⟩ := Memory.put_lit_keeps s.mem va vb
      exact hm ▸ ⟨hwf hs.memWf, hlegal hs.memLegal⟩
  obtain ⟨hhalted, hfault⟩ := h.outcome_run
  exact ⟨hmem.1, hmem.2, h.pc_le hs.pcBound, h.keeps.1 ▸ hs.programLegal, hhalted, hfault⟩

/-- A legal image, by its length and its words (10_state.md rule R27). -/
theorem imageLegal_iff {ws : List Word} :
    imageLegal ws = true ↔ ws.length ≤ 32768 ∧ ∀ w ∈ ws, w.toNat ≤ 32775 := by
  simp [imageLegal]

/-- A reset state of a legal image meets the invariant. -/
theorem State.inv_resetWith (regs : Vector Lit Config.nregs) {program : List Word}
    (input : List Lit) (output : List Code) (supervisor : Debug) (h : imageLegal program = true) :
    (State.resetWith regs program input output supervisor).Inv := by
  obtain ⟨hlen, hwords⟩ := imageLegal_iff.1 h
  exact ⟨Memory.wf_ofWords hlen, Memory.legal_ofWords hwords, Nat.zero_le _, h, by simp, nofun⟩

/-- Settles O19: the memory of a legal image is canonical and legal, and the power-on state is the
reset state of the empty image. -/
theorem resetMeetsTheInvariant : Obligations.ResetMeetsTheInvariant :=
  ⟨State.inv_resetWith _ _ _ _ rfl, fun regs _ input output supervisor h =>
    State.inv_resetWith regs input output supervisor h⟩

/-! ### The ways to halt -/

/-- Fetching changes `pc` and the count of steps only. -/
theorem changesOnly_fetched (s : State) (n : Nat) :
    ChangesOnly [.pc, .cycles] s (s.fetched n) := by
  intro p hp
  cases p with
  | pc => simp at hp
  | cycles => simp at hp
  | _ => rfl

/-- Halting changes the run state and the outcome only. -/
theorem changesOnly_halted (s : State) (c : HaltCause) :
    ChangesOnly [.run, .outcome] s { s with run := .halted c, outcome := .halted } := by
  intro p hp
  cases p with
  | run => simp at hp
  | outcome => simp at hp
  | _ => rfl

/-- A running machine that a step halts has run an instruction whose halting condition held. -/
theorem StepTo.halts_of_run {s t : State} {c : HaltCause} (h : StepTo s t)
    (hrun : s.run = .running) (ht : t.run = .halted c) :
    ∃ i, s.runs i ∧ s.canFetch i.length ∧ Halts i (s.fetched i.length) c ∧
      t = { s.fetched i.length with run := .halted c, outcome := .halted } := by
  cases h with
  | stays c' hhalted => simp [hrun] at hhalted
  | faults => simp [hrun] at ht
  | does i u _ hi hk h =>
    obtain ⟨hu, -⟩ := h.keeps
    simp [hu, hrun] at ht
  | halts i c' _ hi hk h =>
    obtain rfl : c' = c := by simpa using ht
    exact ⟨i, hi, hk, h, rfl⟩

/-- Settles O26, by the three halting conditions of `Halts`. -/
theorem onlyThreeWaysToHalt : Obligations.OnlyThreeWaysToHalt := by
  intro s t c hrun hstep ht
  obtain ⟨i, hi, hk, hhalts, rfl⟩ := (stepTo_of_step hstep).halts_of_run hrun ht
  have hframe := (changesOnly_fetched s i.length).trans (changesOnly_halted _ c)
  refine ⟨⟨rfl, rfl⟩, hframe.mono (by simp), ?_⟩
  have hpc := hk.toNat_pc
  cases hhalts with
  | halt => exact .inl ⟨hi, rfl, hpc⟩
  | ret hstack => exact .inr (.inl ⟨hi, hstack, rfl, hpc⟩)
  | inp r hinput => exact .inr (.inr ⟨r, hi, hinput, rfl, hpc⟩)

/-! ### The parts that only certain instructions change -/

/-- The words at `pc` decode to one instruction at most. -/
theorem State.runs_unique {s : State} {i j : Instr} (hi : s.runs i) (hj : s.runs j) : i = j := by
  obtain ⟨rest, hi⟩ := hi
  obtain ⟨rest', hj⟩ := hj
  rw [hi] at hj
  cases hj
  rfl

/-- A step that faults at words which decode has fetched all of them. -/
theorem StepFault.fetched_eq_length {s : State} {i : Instr} {k : Nat} {f : Fault}
    (h : StepFault s k f) (hi : s.runs i) : k = i.length := by
  obtain ⟨rest, hdec⟩ := id hi
  cases h with
  | noOpcodeWord h => simp [hdec] at h
  | truncated op got h => simp [hdec] at h
  | unknownOpcode w h => simp [hdec] at h
  | raises j hj => rw [State.runs_unique hi hj]

/-- Settles O21: whatever the end of the step, `pc` is past the words fetched, and only a jump that
completes assigns it again. -/
theorem onlyTheJumpFamilyAssignsThePc : Obligations.OnlyTheJumpFamilyAssignsThePc := by
  intro s t i hrun hi hjump hstep
  cases stepTo_of_step hstep with
  | stays c hhalted => simp [hrun] at hhalted
  | faults k f _ hk h => exact h.fetched_eq_length hi ▸ hk.toNat_pc
  | halts j c _ hj hk => exact State.runs_unique hi hj ▸ hk.toNat_pc
  | does j u _ hj hk h =>
    obtain rfl := State.runs_unique hi hj
    rcases h.pc_cases with hu | ⟨hj, -⟩
    · exact hu ▸ hk.toNat_pc
    · simp [hjump] at hj

/-- Settles O24, by the instructions that complete: the other ends of a step keep the stack. -/
theorem stackChangesOnlyAtItsTop : Obligations.StackChangesOnlyAtItsTop := by
  intro s t hstep
  cases stepTo_of_step hstep with
  | does i u hrun hi hk h =>
    rcases h.stack_cases with hs | ⟨⟨a, rfl | rfl⟩, hs⟩ | ⟨⟨r, rfl⟩ | rfl, hs⟩
    · exact .inl hs
    · exact .inr (.inl ⟨hrun, ⟨a, .inl hi⟩, hs⟩)
    · exact .inr (.inl ⟨hrun, ⟨a, .inr hi⟩, hs⟩)
    · exact .inr (.inr ⟨hrun, .inl ⟨r, hi⟩, hs⟩)
    · exact .inr (.inr ⟨hrun, .inr hi, hs⟩)
  | _ => exact .inl rfl

/-- Settles O25, by the instructions that complete: the other ends of a step keep both streams. -/
theorem streamsOnlyGrowAndDrain : Obligations.StreamsOnlyGrowAndDrain := by
  intro s t hstep
  cases stepTo_of_step hstep with
  | does i u hrun hi hk h =>
    exact ⟨h.output_cases.imp_right fun ⟨⟨a, ha⟩, hout⟩ => ⟨⟨a, ha ▸ hi⟩, hout⟩,
      h.input_cases.imp_right fun ⟨⟨r, hr⟩, hin⟩ => ⟨⟨r, hr ▸ hi⟩, hin⟩⟩
  | _ => exact ⟨.inl rfl, .inl rfl⟩

/-! ### Runs -/

/-- A store leaves written cells written. -/
theorem Memory.cell_put_ne_none {m : Memory} {a : Nat} (b : Nat) (w : Word)
    (h : m.cell a ≠ none) : (m.put b w).cell a ≠ none := by
  by_cases hab : a = b
  · simp [hab]
  · rwa [Memory.cell_put_ne m w hab]

/-- A step leaves written cells written (10_state.md rule R20). -/
theorem StepTo.cell_ne_none {s t : State} {a : Nat} (h : StepTo s t) (hs : s.mem.cell a ≠ none) :
    t.mem.cell a ≠ none := by
  rcases h.mem_cases with hm | ⟨x, y, va, vb, -, -, -, -, hm⟩
  · exact hm ▸ hs
  · exact hm ▸ Memory.cell_put_ne_none va.toNat _ hs

/-- Settles O23, by induction on the run. -/
theorem writtenCellsStayWritten : Obligations.WrittenCellsStayWritten := by
  intro s t a hreach hs
  induction hreach with
  | refl => exact hs
  | next _ hstep ih => exact (stepTo_of_step hstep).cell_ne_none ih

/-- Settles O28, by induction on the run. -/
theorem stepsKeepImageAndDebugSets : Obligations.StepsKeepImageAndDebugSets := by
  intro s t hreach
  induction hreach with
  | refl => exact ⟨rfl, rfl, rfl, rfl⟩
  | next _ hstep ih =>
    obtain ⟨hprogram, hpoints, hops, hwatches⟩ := (stepTo_of_step hstep).keeps
    rwa [hprogram, hpoints, hops, hwatches]

end Sys2Proof.Machine
end

section
/-! PROOFS. The memory primitives and the host's load (20_memory.md rule R42 to rule R44). -/

namespace Sys2Proof.Machine

/-- Settles O11, by the two guards of MemWrite and the laws of `Memory.put`. -/
theorem memWriteStoresOneCellOrFaults : Obligations.MemWriteStoresOneCellOrFaults := by
  intro m a n
  refine ⟨fun hn => if_pos hn, fun hn ha => ?_, fun hn ha => ?_⟩
  · rw [memWrite, if_neg (Nat.not_lt.2 hn), if_pos ha]
  · have hw : (BitVec.ofNat 16 n).toNat = n := by
      rw [BitVec.toNat_ofNat]
      omega
    exact ⟨_, memWrite_legal hn ha, ⟨_, Memory.cell_put_same m a _, hw⟩,
      fun b hb => Memory.cell_put_ne m _ hb, Memory.wf_put _ ha⟩

/-- An image of at most 32768 words that holds an illegal one is refused with such a word. -/
theorem load_illegalWord {ws : List Word} (s : State) (hlen : ws.length ≤ 32768)
    (h : ∃ w ∈ ws, 32776 ≤ w.toNat) :
    ∃ w ∈ ws, 32776 ≤ w.toNat ∧ load ws s = .error (.encodingError w.toNat) := by
  obtain ⟨v, hv, hillegal⟩ := h
  cases hfind : ws.find? fun w => decide (Config.wordMax < w.toNat) with
  | none => exact absurd (decide_eq_true hillegal) (List.find?_eq_none.1 hfind v hv)
  | some w =>
    have hw : 32775 < w.toNat := by simpa using List.find?_some hfind
    refine ⟨w, List.mem_of_find?_eq_some hfind, hw, ?_⟩
    rw [load, if_neg (Nat.not_lt.2 hlen), hfind]

/-- A legal image is kept, and the reset initialisation is done. -/
theorem load_legal {ws : List Word} (s : State) (hlen : ws.length ≤ 32768)
    (h : ∀ w ∈ ws, w.toNat ≤ 32775) : load ws s = .ok (hostReset { s with program := ws }) := by
  have hfind : (ws.find? fun w => decide (Config.wordMax < w.toNat)) = none :=
    List.find?_eq_none.2 fun w hw => by simpa using h w hw
  rw [load, if_neg (Nat.not_lt.2 hlen), hfind]

/-- Every register is 0 after a reset (the spec's decision D2). -/
theorem getReg_hostReset (s : State) (i : RegIdx) : (hostReset s).getReg i = 0 := by
  simp [State.getReg, hostReset, State.resetWith, Config.regReset]

/-- Settles O54: the two checks in their order, then the state that a legal image loads. -/
theorem loadFillsMemoryOrRefuses : Obligations.LoadFillsMemoryOrRefuses := by
  intro ws s
  refine ⟨fun hlen => if_pos hlen, load_illegalWord s, fun hlen hwords => ?_⟩
  exact ⟨_, load_legal s hlen hwords, Memory.cell_ofWords ws, rfl, getReg_hostReset _, rfl, rfl,
    rfl⟩

/-- Settles O22: a store at one cell leaves every other cell, so the cell that changed is the one
that the address operand names. -/
theorem onlyWmemChangesMemory : Obligations.OnlyWmemChangesMemory := by
  intro s t a hstep hne
  rcases (stepTo_of_step hstep).mem_cases with hm | ⟨x, y, va, vb, hrun, hi, hx, hy, hm⟩
  · exact absurd (congrArg (Memory.cell · a) hm) hne
  · have ha : va.toNat = a := by
      by_contra hva
      exact hne (by rw [hm, Memory.cell_put_ne s.mem _ (Ne.symm hva)])
    have hw : (BitVec.ofNat 16 vb.toNat).toNat = vb.toNat := by
      have hvb := vb.isLt
      rw [BitVec.toNat_ofNat]
      omega
    refine ⟨x, y, va, vb, hrun, hi, hx, hy, ha, _, ?_, hw⟩
    rw [hm, ← ha, Memory.cell_put_same]

end Sys2Proof.Machine
end

section
/-! PROOFS. The faults that a step can reach (20_memory.md rule R58, 60_exceptions.md rule R202 to
rule R208): the words at `pc` are legal, so no operand is an invalid encoding, and the fetches stay
in the address space up to the one at `pc = 32768`. -/

namespace Sys2Proof

/-- A word that selects no opcode is above every opcode id (30_encoding.md rule R72). -/
theorem Opcode.lt_toNat_of_ofWord_none {w : Word} (h : Opcode.ofWord w = none) :
    21 < w.toNat := by
  by_contra hle
  have hid : w.toNat ∈ Opcode.all.map Opcode.id := by
    rw [Opcode.ids_all, List.mem_range, Config.numOpcodes]
    omega
  obtain ⟨op, -, hop⟩ := List.mem_map.1 hid
  have hw : op.word = w := by
    rw [Opcode.word, hop, BitVec.ofNat_toNat, BitVec.setWidth_eq]
  simp [← hw, Opcode.ofWord_word] at h

/-- Assembling reads the operand positions that the opcode has, in order (rule R71). -/
theorem Opcode.operands_assemble (op : Opcode) (ws : List Word) :
    (op.assemble ws).operands = (List.range op.operandCount).map (operandAt ws) := by
  cases op <;> rfl

/-- The class of a legal word is legal in a value position. -/
theorem okValue_decodeOperand {w : Word} (h : w.toNat ≤ 32775) :
    (decodeOperand w).okValue = true := by
  cases hw : decodeOperand w with
  | lit v => rfl
  | reg i => rfl
  | invalid x =>
    have := exists_decodeOperand_eq_invalid_iff.1 ⟨x, hw⟩
    omega

/-- Every position of a list of legal words holds an operand that is legal as a value. -/
theorem okValue_operandAt {ws : List Word} (h : ∀ w ∈ ws, w.toNat ≤ 32775) (k : Nat) :
    (operandAt ws k).okValue = true := by
  refine okValue_decodeOperand ?_
  rw [List.getD_eq_getElem?_getD]
  cases hk : ws[k]? with
  | none => exact Nat.zero_le _
  | some w => exact h w (List.mem_of_getElem? hk)

/-- Decoding legal words gives operands that are legal as values. -/
theorem okValue_of_decode {ws rest : List Word} {i : Instr} (hdec : decode ws = .ok (i, rest))
    (h : ∀ w ∈ ws, w.toNat ≤ 32775) : ∀ o ∈ i.operands, o.okValue = true := by
  cases ws with
  | nil => cases hdec
  | cons w ws =>
    cases hop : Opcode.ofWord w with
    | none => simp [decode, hop] at hdec
    | some op =>
      by_cases hlen : ws.length < op.operandCount
      · simp [decode, hop, hlen] at hdec
      · simp only [decode, hop, hlen, if_false, Except.ok.injEq, Prod.mk.injEq] at hdec
        obtain ⟨rfl, -⟩ := hdec
        intro o ho
        rw [Opcode.operands_assemble] at ho
        obtain ⟨k, -, rfl⟩ := List.mem_map.1 ho
        exact okValue_operandAt
          (fun v hv => h v (List.mem_cons_of_mem w (List.mem_of_mem_take hv))) k

/-- The destination of an instruction is one of its operands (rule R71). -/
theorem Instr.mem_operands_of_destination {i : Instr} {r : Operand}
    (h : i.destination = some r) : r ∈ i.operands := by
  cases i <;> simp_all [Instr.destination, Instr.operands]

/-- A legal word that is no register is a literal. -/
theorem Operand.word_le_of_okValue {o : Operand} (hv : o.okValue = true)
    (hd : o.okDest = false) : o.word.toNat ≤ 32767 := by
  cases o with
  | lit v =>
    have := v.isLt
    rw [Operand.toNat_word_lit]
    omega
  | reg i => cases hd
  | invalid w => cases hv

end Sys2Proof

namespace Sys2Proof.Machine

/-! ### What the invariant says of the words at `pc` -/

/-- The words that memory gives from an address are legal when memory is. -/
theorem Memory.legal_wordsFrom {m : Memory} (hm : m.legal = true) (a n : Nat) :
    ∀ w ∈ m.wordsFrom a n, w.toNat ≤ 32775 := by
  induction n generalizing a with
  | zero => simp [Memory.wordsFrom]
  | succ n ih =>
    cases hread : memRead m a with
    | error f => simp [Memory.wordsFrom, hread]
    | ok v =>
      rw [Memory.wordsFrom_of_read hread]
      exact List.forall_mem_cons.2 ⟨Memory.legal_word hm (memRead_ok.1 hread).2, ih (a + 1)⟩

/-- No operand of the instruction at `pc` is an invalid encoding (30_encoding.md rule R74). -/
theorem State.Inv.okValue_of_runs {s : State} {i : Instr} (hs : s.Inv) (hi : s.runs i) :
    ∀ o ∈ i.operands, o.okValue = true := by
  obtain ⟨rest, hdec⟩ := hi
  exact okValue_of_decode hdec (Memory.legal_wordsFrom hs.memLegal _ _)

/-- A fetch can fail at an unwritten cell, or just past the last one. -/
theorem State.Inv.fetch_fault {s : State} {k : Nat} {f : Fault} (hs : s.Inv)
    (hk : s.canFetch k) (h : memRead s.mem (s.pc.toNat + k) = .error f) :
    (s.pc.toNat + k = 32768 ∧ f = .memoryFault .outOfRange 32768) ∨
    (s.pc.toNat + k < 32768 ∧ s.mem.cell (s.pc.toNat + k) = none ∧
      f = .memoryFault .unwritten (s.pc.toNat + k)) := by
  refine (memRead_error.1 h).imp_left fun ⟨hge, hf⟩ => ?_
  have hle := hk.toNat_pc ▸ hk.pc_le hs.pcBound
  have heq : s.pc.toNat + k = 32768 := by omega
  exact ⟨heq, heq ▸ hf⟩

/-! ### The faults of a step -/

/-- A step that faults in a fetch stands at the word that it could not read; else it faults in the
decoder or in the instruction that it has read. -/
theorem StepFault.fetch_or_decode_or_raises {s : State} {k : Nat} {f : Fault}
    (h : StepFault s k f) :
    ((∃ e, s.decoded = .error e) ∧ memRead s.mem (s.pc.toNat + k) = .error f) ∨
    (∃ w, memRead s.mem s.pc.toNat = .ok w ∧ 21 < w.toNat ∧ f = .decodeError w.toNat) ∨
    (∃ i, s.runs i ∧ k = i.length ∧ Raises i (s.fetched i.length) f) := by
  cases h with
  | noOpcodeWord hdec hread => exact .inl ⟨⟨_, hdec⟩, hread⟩
  | truncated op got hdec hread => exact .inl ⟨⟨_, hdec⟩, hread⟩
  | unknownOpcode w hdec hread hop =>
    exact .inr (.inl ⟨w, hread, Opcode.lt_toNat_of_ofWord_none hop, rfl⟩)
  | raises i hi h => exact .inr (.inr ⟨i, hi, rfl, h⟩)

/-- A step whose outcome is a fault has met that fault, with `pc` past the words fetched. -/
theorem StepTo.stepFault_of_outcome {s t : State} {f : Fault} (h : StepTo s t)
    (ht : t.outcome = .faulted f) :
    ∃ k, s.canFetch k ∧ StepFault s k f ∧ t.pc.toNat = s.pc.toNat + k := by
  cases h with
  | faults k g _ hk h =>
    obtain rfl : g = f := by simpa using ht
    exact ⟨k, hk, h, hk.toNat_pc⟩
  | _ => cases ht

/-- `call` finds a return address that is no literal only when it stands in the last two cells
(the spec's decision D9). -/
theorem State.canFetch.returnAddress {s : State} (hk : s.canFetch 2) (hs : s.Inv)
    (h : 32768 ≤ (s.fetched 2).pc.toNat) :
    (s.fetched 2).pc.toNat = 32768 ∧ s.pc.toNat = 32766 := by
  have hle := hk.pc_le hs.pcBound
  have hpc := hk.toNat_pc
  omega

/-- Settles O20: the fetches, the decoder and the conditions of `Raises`, each with the bound that
the invariant puts on the value it records. -/
theorem onlyReachableFaultsAreRaised : Obligations.OnlyReachableFaultsAreRaised := by
  intro s t f hs hstep ht
  obtain ⟨k, hk, hfault, -⟩ := (stepTo_of_step hstep).stepFault_of_outcome ht
  rcases hfault.fetch_or_decode_or_raises with
    ⟨-, hread⟩ | ⟨w, hread, hw, rfl⟩ | ⟨i, hi, rfl, hraises⟩
  · rcases hs.fetch_fault hk hread with ⟨-, rfl⟩ | ⟨hlt, hcell, rfl⟩
    · rfl
    · exact ⟨hlt, hcell⟩
  · exact ⟨hw, Memory.legal_word hs.memLegal (memRead_ok.1 hread).2⟩
  · have hok := hs.okValue_of_runs hi
    cases hraises with
    | badDestination r hr hdest =>
      exact Operand.word_le_of_okValue (hok r (Instr.mem_operands_of_destination hr)) hdest
    | invalidWord w hmem => exact absurd (hok _ hmem) nofun
    | stackUnderflow r hstack => exact hstack
    | modZero => rfl
    | unwritten r a v hv hcell => exact ⟨v.isLt, hcell⟩
    | nonLiteralData r a v w hv hcell hw => exact ⟨hw, Memory.legal_word hs.memLegal hcell⟩
    | returnAddress a hpc => exact hk.returnAddress hs hpc
    | outRange a v hv hrange => exact ⟨hrange, Nat.le_of_lt_succ v.isLt⟩

/-- A memory fault of a step comes from a fetch, which stands at the address, or from `rmem`, which
finds a cell unwritten. -/
theorem StepTo.memoryFault_cases {s t : State} {c : MemoryCause} {a : Nat} (h : StepTo s t)
    (hs : s.Inv) (ht : t.outcome = .faulted (.memoryFault c a)) :
    (t.pc.toNat = a ∧ (∃ e, s.decoded = .error e) ∧ (c = .outOfRange → a = 32768)) ∨
    (c = .unwritten ∧ ∃ r x, s.runs (.rmem r x)) := by
  obtain ⟨k, hk, hfault, hpc⟩ := h.stepFault_of_outcome ht
  rcases hfault.fetch_or_decode_or_raises with ⟨hdec, hread⟩ | ⟨w, -, -, hf⟩ | ⟨i, hi, -, hraises⟩
  · rcases hs.fetch_fault hk hread with ⟨hlast, hf⟩ | ⟨-, -, hf⟩
    · cases hf
      exact .inl ⟨hpc.trans hlast, hdec, fun _ => rfl⟩
    · cases hf
      exact .inl ⟨hpc, hdec, nofun⟩
  · cases hf
  · cases hraises with
    | unwritten r x => exact .inr ⟨rfl, r, x, hi⟩

/-- Settles O10: the arms of MemRead, and the faults of a step that come from it. -/
theorem memReadGivesTheCellOrFaults : Obligations.MemReadGivesTheCellOrFaults := by
  refine ⟨fun m a => ⟨memRead_outOfRange, fun ha hcell => memRead_error.2 (.inr ⟨ha, hcell, rfl⟩),
      fun w ha hcell => memRead_ok.2 ⟨ha, hcell⟩⟩,
    fun s a w hs hread => Memory.legal_word hs.memLegal (memRead_ok.1 hread).2,
    fun s t a hs hstep _ => ⟨fun ht => ?outOfRange, fun ht => ?unwritten⟩⟩
  case outOfRange =>
    rcases (stepTo_of_step hstep).memoryFault_cases hs ht with ⟨hpc, hdec, ha⟩ | ⟨hc, -⟩
    · exact ⟨ha rfl, hpc.trans (ha rfl), hdec⟩
    · cases hc
  case unwritten =>
    exact ((stepTo_of_step hstep).memoryFault_cases hs ht).imp
      (fun ⟨hpc, hdec, _⟩ => ⟨hpc, hdec⟩) fun ⟨_, hrmem⟩ => hrmem

end Sys2Proof.Machine
end

section
/-! PROOFS. The decoder and the encoder (30_encoding.md rule R70 to rule R73, rule R80): an
instruction is its opcode and its operands, and a list of words decodes exactly when it begins with an
opcode word and as many operand words as the opcode has. -/

namespace Sys2Proof

/-! ### Opcode words -/

/-- A word whose number is the opcode id is the opcode word. -/
theorem Opcode.word_eq_of_id {w : Word} {op : Opcode} (h : w.toNat = op.id) : op.word = w := by
  rw [Opcode.word, ← h, BitVec.ofNat_toNat, BitVec.setWidth_eq]

theorem Opcode.ofWord_eq_some_iff {w : Word} {op : Opcode} :
    Opcode.ofWord w = some op ↔ w.toNat = op.id := by
  refine ⟨Opcode.id_of_ofWord, fun hid => ?_⟩
  rw [← Opcode.word_eq_of_id hid, Opcode.ofWord_word]

theorem Opcode.id_le (op : Opcode) : op.id ≤ 21 := by
  cases op <;> decide

/-- Settles O5: a word above every opcode id selects none, and the words up to 21 are all ids. -/
theorem opcodeWordsSelectByNumber : Obligations.OpcodeWordsSelectByNumber := by
  refine fun w => ⟨fun op => Opcode.ofWord_eq_some_iff, Opcode.lt_toNat_of_ofWord_none,
    fun hw => Option.eq_none_iff_forall_ne_some.2 fun op hop => ?_⟩
  have hid := Opcode.id_of_ofWord hop
  have hle := op.id_le
  omega

/-! ### Opcode and operands of an instruction -/

theorem Instr.length_operands (i : Instr) : i.operands.length = i.opcode.operandCount := by
  cases i <;> rfl

/-- An instruction is encodable when each of its operands is the class of a word. -/
theorem Instr.encodable_iff (i : Instr) :
    i.encodable = true ↔ ∀ o ∈ i.operands, o.isClass = true := by
  cases i <;> simp [Instr.encodable, Instr.operands, and_assoc]

/-- An instruction is assembled again from its opcode and its operand words. -/
theorem Instr.assemble_words {i : Instr} (h : ∀ o ∈ i.operands, decodeOperand o.word = o) :
    i.opcode.assemble (i.operands.map Operand.word) = i := by
  cases i <;> simp_all [Instr.operands, Instr.opcode, Opcode.assemble, operandAt]

/-- Assembled from as many words as the opcode has, an instruction has their classes as operands. -/
theorem Opcode.operands_assemble_eq_map {op : Opcode} {args : List Word}
    (h : args.length = op.operandCount) :
    (op.assemble args).operands = args.map decodeOperand := by
  rw [Opcode.operands_assemble, ← h]
  refine List.ext_getElem (by simp) fun k hk hk' => ?_
  have hlt : k < args.length := by simpa using hk'
  simp [operandAt, hlt]

/-- The encoding of an assembled instruction is its opcode word and the words it was assembled
from. -/
theorem encode_assemble {op : Opcode} {args : List Word} (h : args.length = op.operandCount) :
    encode (op.assemble args) = op.word :: args := by
  have hwords : Operand.word ∘ decodeOperand = id := funext word_decodeOperand
  rw [encode, Opcode.opcode_assemble, Opcode.operands_assemble_eq_map h, List.map_map, hwords,
    List.map_id]

/-! ### The round trip -/

/-- Everything a successful decode says, and when it succeeds. -/
theorem decode_eq_ok_iff {ws rest : List Word} {i : Instr} :
    decode ws = .ok (i, rest) ↔ ∃ (op : Opcode) (args : List Word), ws = op.word :: (args ++ rest) ∧
      args.length = op.operandCount ∧ i = op.assemble args := by
  constructor
  · intro h
    cases ws with
    | nil => cases h
    | cons w ws =>
      cases hop : Opcode.ofWord w with
      | none => simp [decode, hop] at h
      | some op =>
        by_cases hlt : ws.length < op.operandCount
        · simp [decode, hop, hlt] at h
        · simp only [decode, hop, hlt, if_false, Except.ok.injEq, Prod.mk.injEq] at h
          obtain ⟨rfl, rfl⟩ := h
          refine ⟨op, ws.take op.operandCount, ?_, List.length_take_of_le (Nat.not_lt.1 hlt), rfl⟩
          rw [Opcode.word_eq_of_id (Opcode.id_of_ofWord hop), List.take_append_drop]
  · rintro ⟨op, args, rfl, hlen, rfl⟩
    simp [decode, Opcode.ofWord_word, ← hlen]

/-- Settles O1: the encoding is an opcode word with as many operand words as the opcode has, and the
class of each operand word is the operand. -/
theorem decodeAfterEncodeIsIdentity : Obligations.DecodeAfterEncodeIsIdentity := by
  intro i rest henc
  have hclass := i.encodable_iff.1 henc
  refine decode_eq_ok_iff.2 ⟨i.opcode, i.operands.map Operand.word, rfl, ?_, ?_⟩
  · rw [List.length_map, i.length_operands]
  · exact (Instr.assemble_words fun o ho => decodeOperand_word (hclass o ho)).symm

/-- Settles O2: the decoded instruction is assembled from the words after its opcode word, and its
operands are the classes of those words. -/
theorem encodeAfterDecodeGivesTheWords : Obligations.EncodeAfterDecodeGivesTheWords := by
  intro ws i rest hdec
  obtain ⟨op, args, rfl, hlen, rfl⟩ := decode_eq_ok_iff.1 hdec
  refine ⟨by rw [encode_assemble hlen, List.cons_append], (Instr.encodable_iff _).2 fun o ho => ?_⟩
  rw [Opcode.operands_assemble_eq_map hlen] at ho
  obtain ⟨w, -, rfl⟩ := List.mem_map.1 ho
  exact isClass_decodeOperand w

/-- Settles O7: the operand words are as many as the opcode has, and the list of rule R80 is the
opcode table's. -/
theorem lengthsFollowTheOpcode : Obligations.LengthsFollowTheOpcode := by
  refine ⟨fun i => ?_, rfl⟩
  rw [encode, List.length_cons, List.length_map, i.length_operands, Instr.length, Nat.add_comm]

/-- Settles O6, by running the decoder on each of the seven word sequences. -/
theorem tableWordsDecode : Obligations.TableWordsDecode :=
  ⟨rfl, rfl, rfl, rfl, rfl, rfl, rfl⟩

end Sys2Proof
end

section
/-! PROOFS. The operand positions, the fetch and the step (30_encoding.md rule R74 to rule R77). -/

namespace Sys2Proof.Machine

/-! ### Operand positions -/

/-- Settles O8, by the class of the word; a word that memory gives is legal under the invariant. -/
theorem valuePositionResolves : Obligations.ValuePositionResolves := by
  intro s w
  refine ⟨fun hlit => ?_, fun i hreg => ?_, fun hinvalid => ?_,
    fun v _ => Nat.le_of_lt_succ v.isLt, fun hs a hread => ?_⟩
  · have hv : (w.setWidth 15).toNat = w.toNat := by
      rw [BitVec.toNat_setWidth]
      omega
    exact ⟨w.setWidth 15, by rw [decodeOperand_lit hlit, value_lit], hv⟩
  · rw [decodeOperand_reg hreg, value_reg]
  · rw [decodeOperand_invalid hinvalid, value]
  · have hw := Memory.legal_word hs.memLegal (memRead_ok.1 hread).2
    exact (value_ok_iff s _).2 (okValue_decodeOperand hw)

/-- A word of any class but the registers is no destination, and the fault records it. -/
theorem dest_error_of_okDest {r : Operand} (h : r.okDest = false) :
    dest r = .error (.operandError .badDestination r.word.toNat) := by
  cases hd : dest r with
  | ok d =>
    obtain rfl := dest_ok hd
    cases h
  | error f => rw [(dest_error hd).2]

/-- Settles O9, by the class of the word: only the register class is a destination. -/
theorem destinationPositionDecodes : Obligations.DestinationPositionDecodes := by
  refine fun w => ⟨fun i hreg => by rw [decodeOperand_reg hreg, dest_reg], fun h => ?_⟩
  have hdest : (decodeOperand w).okDest = false := by
    rcases h with hlit | hinvalid
    · rw [decodeOperand_lit hlit, Operand.okDest]
    · rw [decodeOperand_invalid hinvalid, Operand.okDest]
  rw [dest_error_of_okDest hdest, word_decodeOperand]

/-! ### The fetch -/

/-- A fetch of a word that can be read. -/
theorem fetch_of_read {s : State} {w : Word} (h : memRead s.mem s.pc.toNat = .ok w) :
    fetch s = .ok (w, { s with pc := s.pc + 1 }) := by
  simp only [fetch, h]

/-- Advancing `pc` changes `pc` only. -/
theorem changesOnly_pc (s : State) (pc : Word) : ChangesOnly [.pc] s { s with pc := pc } := by
  intro p hp
  cases p with
  | pc => simp at hp
  | _ => rfl

/-- The decoder lacks word `k` at `pc`: the opcode word, or an operand word (rule R76). -/
def State.lacksWord (s : State) (k : Nat) : Prop :=
  s.decoded = .error .noOpcodeWord ∧ k = 0 ∨
    ∃ op got, s.decoded = .error (.truncated op got) ∧ k = 1 + got

/-- Words that decode lack none. -/
theorem State.lacksWord.not_runs {s : State} {k : Nat} {i : Instr} (hk : s.lacksWord k) :
    ¬ s.runs i := by
  rintro ⟨rest, hdec⟩
  rcases hk with ⟨h, -⟩ | ⟨op, got, h, -⟩ <;> simp [hdec] at h

/-- A step that faults where the decoder lacks a word has fetched the words before it and could not
read that one. -/
theorem StepFault.memRead_of_lacksWord {s : State} {j k : Nat} {f : Fault} (h : StepFault s j f)
    (hk : s.lacksWord k) : j = k ∧ memRead s.mem (s.pc.toNat + k) = .error f := by
  cases h with
  | raises i hi => exact absurd hi hk.not_runs
  | noOpcodeWord hdec hread =>
    rcases hk with ⟨-, rfl⟩ | ⟨op, got, h, -⟩
    · exact ⟨rfl, hread⟩
    · simp [hdec] at h
  | unknownOpcode w hdec =>
    rcases hk with ⟨h, -⟩ | ⟨op, got, h, -⟩ <;> simp [hdec] at h
  | truncated op got hdec hread =>
    rcases hk with ⟨h, -⟩ | ⟨op', got', h, rfl⟩
    · simp [hdec] at h
    · rw [hdec] at h
      cases h
      exact ⟨rfl, hread⟩

/-- A failing MemRead records the address. -/
theorem memRead_error_addr {m : Memory} {a : Nat} {f : Fault} (h : memRead m a = .error f) :
    ∃ c, f = .memoryFault c a := by
  rcases memRead_error.1 h with ⟨-, hf⟩ | ⟨-, -, hf⟩
  · exact ⟨_, hf⟩
  · exact ⟨_, hf⟩

/-- Settles O12: the two ways of a fetch, and the step that meets the word it cannot read. -/
theorem fetchReadsAndAdvances : Obligations.FetchReadsAndAdvances := by
  refine ⟨fun s w hread => ?_, fun s f => fetch_error.2, fun s k hrun hk => ?_⟩
  · obtain ⟨-, -, hpc⟩ := fetch_ok (fetch_of_read hread)
    exact ⟨_, fetch_of_read hread, hpc, changesOnly_pc s _⟩
  · rcases step_of_running hrun with ⟨j, f, hj, hfault, hstep⟩ | ⟨i, -, hi, -⟩
    · obtain ⟨rfl, hread⟩ := hfault.memRead_of_lacksWord hk
      exact ⟨_, f, hstep, hread, rfl, memRead_error_addr hread, hj.toNat_pc⟩
    · exact absurd hi (State.lacksWord.not_runs hk)

/-! ### The step -/

/-- When the words at `pc` decode, no fetch of an operand word fails. -/
theorem State.runs.fetchMany_succeeds {s : State} {i : Instr} {w : Word} {op : Opcode} (hi : s.runs i)
    (hread : memRead s.mem s.pc.toNat = .ok w) (hop : Opcode.ofWord w = some op) :
    ∃ ws u, fetchMany op.operandCount (s.fetched 1) = .ok (ws, u) := by
  obtain ⟨rest, hdec⟩ := hi
  have hge : ¬ (s.mem.wordsFrom (s.pc.toNat + 1) 3).length < op.operandCount := by
    intro hlt
    simp [State.decoded_of_opcode hread hop, hlt] at hdec
  rcases hm : fetchMany op.operandCount (s.fetched 1) with ⟨f, u⟩ | ⟨ws, u⟩
  · obtain ⟨k, hk, hlen, -⟩ := fetchMany_error hm
    rw [State.fetched_mem, State.fetched_one_pc_toNat hread] at hlen
    have hmin := Memory.length_wordsFrom_of_le s.mem (s.pc.toNat + 1) op.operandCount_le_three
    omega
  · exact ⟨ws, u, rfl⟩

/-- Settles O13: words that decode can all be fetched, and the fetched words are assembled to the
instruction that they decode to. -/
theorem stepRunsTheDecodedInstruction : Obligations.StepRunsTheDecodedInstruction := by
  intro s i rest hrun hdec
  cases hread : memRead s.mem s.pc.toNat with
  | error f => simp [State.decoded_of_unread hread] at hdec
  | ok w =>
    cases hop : Opcode.ofWord w with
    | none => simp [State.decoded_of_unknown hread hop] at hdec
    | some op =>
      have hi : s.runs i := ⟨rest, hdec⟩
      obtain ⟨ws, u, hm⟩ := hi.fetchMany_succeeds hread hop
      obtain ⟨rfl, -, hassembled⟩ := runs_of_fetchMany hread hop hm
      rw [State.runs_unique hi hassembled]
      exact step_of_operands_read hrun hread hop hm

end Sys2Proof.Machine
end

section
/-! PROOFS. The image file (30_encoding.md rule R84): reading words from bytes is the inverse of
writing them out, the low byte first. -/

namespace Sys2Proof.Machine

/-- A word is read from exactly the two bytes that it is written as. -/
theorem wordOfBytes_eq_iff {lo hi : Byte} {w : Word} :
    wordOfBytes lo hi = w ↔
      BitVec.ofNat 8 (w.toNat % 256) = lo ∧ BitVec.ofNat 8 (w.toNat / 256) = hi := by
  have hlo := lo.isLt
  have hhi := hi.isLt
  have hw := w.isLt
  simp only [wordOfBytes, ← BitVec.toNat_inj, BitVec.toNat_ofNat]
  omega

/-- An image file has these words exactly when it is what they are written as. -/
theorem wordsOfBytes_eq_some_iff {bytes : List Byte} {ws : List Word} :
    wordsOfBytes bytes = some ws ↔ bytesOfWords ws = bytes := by
  induction bytes using wordsOfBytes.induct generalizing ws with
  | case1 => cases ws <;> simp [wordsOfBytes, bytesOfWords]
  | case2 b => cases ws <;> simp [wordsOfBytes, bytesOfWords]
  | case3 lo hi rest ih =>
    cases ws with
    | nil => simp [wordsOfBytes, bytesOfWords]
    | cons w ws => simp [wordsOfBytes, bytesOfWords, ih, wordOfBytes_eq_iff, and_left_comm, and_assoc]

theorem length_bytesOfWords (ws : List Word) : (bytesOfWords ws).length = 2 * ws.length := by
  induction ws with
  | nil => rfl
  | cons w ws ih =>
    simp only [bytesOfWords, List.length_cons, ih]
    omega

/-- Where the two bytes of word `i` stand. -/
theorem getElem?_bytesOfWords {ws : List Word} {i : Nat} {w : Word} (h : ws[i]? = some w) :
    (bytesOfWords ws)[2 * i]? = some (BitVec.ofNat 8 (w.toNat % 256)) ∧
      (bytesOfWords ws)[2 * i + 1]? = some (BitVec.ofNat 8 (w.toNat / 256)) := by
  induction ws generalizing i with
  | nil => simp at h
  | cons v ws ih =>
    cases i with
    | zero =>
      obtain rfl : v = w := by simpa using h
      exact ⟨rfl, rfl⟩
    | succ i => exact ih (by simpa using h)

/-- Settles O59: a file that has words is what they are written as, two bytes each. -/
theorem imageBytesAreLittleEndian : Obligations.ImageBytesAreLittleEndian := by
  refine ⟨fun bytes ws h => ?_, fun bytes hodd => ?_, fun ws => wordsOfBytes_eq_some_iff.2 rfl⟩
  · obtain rfl := wordsOfBytes_eq_some_iff.1 h
    refine ⟨length_bytesOfWords ws, fun i w hi => ?_⟩
    obtain ⟨hlo, hhi⟩ := getElem?_bytesOfWords hi
    have hw := w.isLt
    refine ⟨_, _, hlo, hhi, ?_⟩
    simp only [BitVec.toNat_ofNat]
    omega
  · refine Option.eq_none_iff_forall_ne_some.2 fun ws h => ?_
    have hlen := length_bytesOfWords ws
    rw [wordsOfBytes_eq_some_iff.1 h] at hlen
    omega

end Sys2Proof.Machine
end

section
/-! PROOFS. The two ends of a step that cannot fail (60_exceptions.md rule R200, rule R207), and the
system instructions that consist of them (40_system.md). -/

namespace Sys2Proof.Machine

/-- Recording an outcome changes nothing else. -/
theorem changesOnly_outcome (s : State) (o : StepOutcome) :
    ChangesOnly [.outcome] s { s with outcome := o } := by
  intro p hp
  cases p with
  | outcome => simp at hp
  | _ => rfl

/-- An instruction that ends in `haltMachine` from the state it began in halts the machine. -/
theorem haltsWith_of_exec_eq {i : Instr} {s : State} {c : HaltCause}
    (h : exec i s = haltMachine c s) : HaltsWith i s c :=
  ⟨_, h.trans (haltMachine_eq c s), rfl, rfl, changesOnly_halted s c⟩

theorem exec_halt (s : State) : exec .halt s = haltMachine .haltInstruction s := rfl

theorem exec_noop (s : State) : exec .noop s = complete s := rfl

/-- Settles O29: `halt` is the halting end of a step and `noop` the completing one. -/
theorem haltStopsAndNoopDoesNothing : Obligations.HaltStopsAndNoopDoesNothing := fun s =>
  ⟨haltsWith_of_exec_eq (exec_halt s),
    _, (exec_noop s).trans (complete_eq s), rfl, changesOnly_outcome s .continued⟩

end Sys2Proof.Machine
end

section
/-! PROOFS. Data movement (41_move_stack.md), and what it shares with other instructions: resolving
legal operands, the frame of one update, and the step of an opcode with one operand word. -/

namespace Sys2Proof.Machine

/-! ### Resolution of operands that have a value -/

theorem resolveV_of_value {s : State} {a : Operand} {va : Lit} (ha : value s a = .ok va)
    (k : Lit → Result) : resolveV s a k = k va := by
  rw [resolveV, ha, orRaise_ok]

theorem resolveDV_of_value {s : State} {a : Operand} {va : Lit} (d : RegIdx)
    (ha : value s a = .ok va) (k : RegIdx → Lit → Result) :
    resolveDV s (.reg d) a k = k d va :=
  resolveV_of_value ha (k d)

/-! ### Frames -/

/-- Assigning a register changes that register only (10_state.md rule R12). -/
theorem changesOnly_setReg (s : State) (d : RegIdx) (v : Lit) :
    ChangesOnly [.reg d] s (s.setReg d v) := by
  intro p hp
  cases p with
  | reg i => exact s.getReg_setReg_ne v (by simpa using hp)
  | _ => rfl

/-- Assigning the stack changes the stack only (10_state.md rule R18). -/
theorem changesOnly_stack (s : State) (vs : List Lit) :
    ChangesOnly [.stack] s { s with stack := vs } := by
  intro p hp
  cases p with
  | stack => simp at hp
  | _ => rfl

/-- Raising a fault changes the outcome and the record of the first fault only. -/
theorem changesOnly_faulted (s : State) (f : Fault) :
    ChangesOnly [.outcome, .firstFault] s
      { s with outcome := .faulted f, firstFault := s.firstFault.or (some f) } := by
  intro p hp
  cases p with
  | outcome => simp at hp
  | firstFault => simp at hp
  | _ => rfl

/-! ### The statements' forms, from the equation of `exec` -/

/-- Completing after a register assignment writes that register. -/
theorem writesRegister_of_exec_eq {i : Instr} {s : State} {d : RegIdx} {v : Lit}
    (h : exec i s = complete (s.setReg d v)) : WritesRegister i s d v.toNat :=
  ⟨_, h.trans (complete_eq _), congrArg BitVec.toNat (s.getReg_setReg_same d v), rfl,
    (changesOnly_setReg s d v).trans (changesOnly_outcome _ .continued)⟩

/-- An instruction that ends in `raise` from the state it began in raises the fault. -/
theorem raisesFault_of_exec_eq {i : Instr} {s : State} {f : Fault}
    (h : exec i s = raise f s) : RaisesFault i s f :=
  ⟨_, h.trans (raise_eq f s), rfl, changesOnly_faulted s f⟩

/-! ### The three instructions -/

theorem exec_set {s : State} {a : Operand} {va : Lit} (d : RegIdx) (ha : value s a = .ok va) :
    exec (.set (.reg d) a) s = complete (s.setReg d va) :=
  resolveDV_of_value d ha fun d va => complete (s.setReg d va)

theorem exec_push {s : State} {a : Operand} {va : Lit} (ha : value s a = .ok va) :
    exec (.push a) s = complete (s.push va) :=
  resolveV_of_value ha fun va => complete (s.push va)

theorem exec_pop (s : State) (d : RegIdx) :
    exec (.pop (.reg d)) s = orRaise s s.pop fun top => complete (top.2.setReg d top.1) := rfl

/-- Settles O30: `set` completes after assigning the register. -/
theorem setCopiesTheValue : Obligations.SetCopiesTheValue := fun _ d _ _ ha =>
  writesRegister_of_exec_eq (exec_set d ha)

/-- Settles O31: `push` completes after the stack's push. -/
theorem pushAddsTheTop : Obligations.PushAddsTheTop := fun s _ va ha =>
  ⟨_, (exec_push ha).trans (complete_eq _), rfl, rfl,
    (changesOnly_stack s (va :: s.stack)).trans (changesOnly_outcome _ .continued)⟩

/-- Settles O32: the two ways of the stack's pop. -/
theorem popMovesTheTopOrUnderflows : Obligations.PopMovesTheTopOrUnderflows := by
  intro s d
  refine ⟨fun v rest hstack => ?_, fun hstack => raisesFault_of_exec_eq ?_⟩
  · have hexec : exec (.pop (.reg d)) s =
        complete (({ s with stack := rest } : State).setReg d v) := by
      rw [exec_pop, State.pop_cons hstack, orRaise_ok]
    have hframe := ((changesOnly_stack s rest).trans (changesOnly_setReg _ d v)).trans
      (changesOnly_outcome _ .continued)
    exact ⟨_, hexec.trans (complete_eq _), State.getReg_setReg_same _ d v, rfl, rfl,
      hframe.mono (by simp)⟩
  · rw [exec_pop, State.pop_nil hstack, orRaise_error]

/-! ### The step of an opcode with one operand word -/

section
variable {s : State} {w : Word} {op : Opcode} (hrun : s.run = .running)
  (hread : memRead s.mem s.pc.toNat = .ok w) (hop : Opcode.ofWord w = some op)
  (hcount : op.operandCount = 1)
include hrun hread hop hcount

/-- The operand word can be read: both words are fetched and the instruction is executed. -/
theorem step_of_operand_read {v : Word} (hv : memRead s.mem (s.pc.toNat + 1) = .ok v) :
    step s = exec (op.assemble [v]) (s.fetched 2) := by
  have hfetch : fetch (s.fetched 1) = .ok (v, s.fetched 2) := by
    rw [← s.fetched_one_add 1]
    exact fetch_of_read (by rwa [State.fetched_one_pc_toNat hread])
  exact step_of_operands_read hrun hread hop (by simp only [hcount, fetchMany, hfetch])

/-- The operand word cannot be read: its fault is raised with `pc` at that word (rule R76). -/
theorem step_of_operand_unread {f : Fault} (hf : memRead s.mem (s.pc.toNat + 1) = .error f) :
    step s = raise f (s.fetched 1) := by
  have hfetch : fetch (s.fetched 1) = .error f :=
    fetch_error.2 (by rwa [State.fetched_one_pc_toNat hread])
  exact step_of_operands_unread hrun hread hop (by simp only [hcount, fetchMany, hfetch])

end

/-- Settles O52: `push` has one operand word; a legal one has a value, and from the state with both
words fetched the instruction does what O31 says. -/
theorem pushStepFromFetchToOutcome : Obligations.PushStepFromFetchToOutcome := by
  intro s hs hrun hread
  have hop : Opcode.ofWord 2 = some .push := rfl
  refine ⟨fun w hw => ?_, fun f hf => ?_⟩
  · have hlegal := Memory.legal_word hs.memLegal (memRead_ok.1 hw).2
    obtain ⟨v, hv⟩ := (value_ok_iff s _).2 (okValue_decodeOperand hlegal)
    have hv2 : value (s.fetched 2) (decodeOperand w) = .ok v := (value_congr rfl _).trans hv
    obtain ⟨t, hexec, hstack, hout, hframe⟩ := pushAddsTheTop (s.fetched 2) _ v hv2
    have hk : s.canFetch 2 :=
      State.canFetch_one_add (k := 1) hread (by rw [Memory.wordsFrom_of_read hw]; rfl)
    have hpc : t.pc = (s.fetched 2).pc := hframe .pc (by simp)
    exact ⟨v, t, hv, (step_of_operand_read hrun hread hop rfl hw).trans hexec, hstack,
      hpc ▸ hk.toNat_pc, hout, ((changesOnly_fetched s 2).trans hframe).mono (by simp)⟩
  · obtain ⟨c, hc⟩ := memRead_error_addr hf
    exact ⟨_, c, step_of_operand_unread hrun hread hop rfl hf, rfl, hc⟩

end Sys2Proof.Machine
end

section
/-! PROOFS. The comparisons (42_compare.md), and the resolution of the format DVV that they share with
the instructions of 44_alu.md. -/

namespace Sys2Proof.Machine

/-! ### Resolution of two operands that have values -/

theorem resolveVV_of_value {s : State} {a b : Operand} {va vb : Lit} (ha : value s a = .ok va)
    (hb : value s b = .ok vb) (k : Lit → Lit → Result) : resolveVV s a b k = k va vb := by
  rw [resolveVV, ha, hb, orRaise_ok, orRaise_ok]

theorem resolveDVV_of_value {s : State} {a b : Operand} {va vb : Lit} (d : RegIdx)
    (ha : value s a = .ok va) (hb : value s b = .ok vb) (k : RegIdx → Lit → Lit → Result) :
    resolveDVV s (.reg d) a b k = k d va vb :=
  resolveVV_of_value ha hb (k d)

/-! ### The two operations of the ALU -/

theorem aluEq_toNat (va vb : Lit) :
    (aluEq va vb).toNat = if va.toNat = vb.toNat then 1 else 0 :=
  apply_ite BitVec.toNat _ 1 0

theorem aluGt_toNat (va vb : Lit) :
    (aluGt va vb).toNat = if va.toNat > vb.toNat then 1 else 0 :=
  apply_ite BitVec.toNat _ 1 0

/-! ### The two instructions -/

section
variable {s : State} {a b : Operand} {va vb : Lit} (d : RegIdx) (ha : value s a = .ok va)
  (hb : value s b = .ok vb)
include ha hb

theorem exec_eq : exec (.eq (.reg d) a b) s = complete (s.setReg d (aluEq va vb)) :=
  resolveDVV_of_value d ha hb fun d va vb => complete (s.setReg d (aluEq va vb))

theorem exec_gt : exec (.gt (.reg d) a b) s = complete (s.setReg d (aluGt va vb)) :=
  resolveDVV_of_value d ha hb fun d va vb => complete (s.setReg d (aluGt va vb))

end

/-- Settles O33: `eq` completes after assigning the equality of the values to the register. -/
theorem eqWritesOneOrZero : Obligations.EqWritesOneOrZero := by
  intro s d a b va vb ha hb
  rw [← aluEq_toNat]
  exact writesRegister_of_exec_eq (exec_eq d ha hb)

/-- Settles O34: `gt` completes after assigning the unsigned comparison of the values to the
register. -/
theorem gtComparesUnsigned : Obligations.GtComparesUnsigned := by
  intro s d a b va vb ha hb
  rw [← aluGt_toNat]
  exact writesRegister_of_exec_eq (exec_gt d ha hb)

end Sys2Proof.Machine
end

section
/-! PROOFS. The jump family (43_jump_family.md): the jumps assign `pc`, `call` and `ret` exchange it
with the top of the stack, and `jmp` from its fetch to its outcome. -/

namespace Sys2Proof.Machine

/-! ### The program counter as a literal -/

/-- A jump assigns the number of its target (10_state.md rule R15). -/
theorem State.toNat_jump_pc (s : State) (v : Lit) : (s.jump v).pc.toNat = v.toNat :=
  Operand.toNat_word_lit v

/-- A jump assigns `pc` only. -/
theorem changesOnly_jump (s : State) (v : Lit) : ChangesOnly [.pc] s (s.jump v) := by
  intro p hp
  cases p with
  | pc => simp at hp
  | _ => rfl

/-- The literal of a return address in range is its number (rule R143). -/
theorem toNat_setWidth_of_le_litMax {w : Word} (h : w.toNat ≤ 32767) :
    (w.setWidth 15).toNat = w.toNat := by
  rw [BitVec.toNat_setWidth]
  exact Nat.mod_eq_of_lt (Nat.lt_succ_of_le h)

/-! ### The conditional and unconditional jumps -/

/-- The instruction completes: `exec` answers a next state with outcome Continued in which `pc` is
the number `n`, and every other part stays. -/
def AssignsPc (i : Instr) (s : State) (n : Nat) : Prop :=
  ∃ t, exec i s = .next t ∧ t.pc.toNat = n ∧ t.outcome = .continued ∧
    ChangesOnly [.pc, .outcome] s t

/-- Completing after a jump assigns its target. -/
theorem assignsPc_of_exec_eq_jump {i : Instr} {s : State} {v : Lit}
    (h : exec i s = complete (s.jump v)) : AssignsPc i s v.toNat :=
  ⟨_, h.trans (complete_eq _), s.toNat_jump_pc v, rfl,
    (changesOnly_jump s v).trans (changesOnly_outcome _ .continued)⟩

/-- Completing after a jump that depends on a condition: `pc` stays where it is not met. -/
theorem assignsPc_of_exec_eq_ite {i : Instr} {s : State} {v : Lit} {c : Prop} [Decidable c]
    (h : exec i s = complete (if c then s.jump v else s)) :
    AssignsPc i s (if c then v.toNat else s.pc.toNat) := by
  by_cases hc : c
  · rw [if_pos hc] at h ⊢
    exact assignsPc_of_exec_eq_jump h
  · rw [if_neg hc] at h ⊢
    exact ⟨_, h.trans (complete_eq s), rfl, rfl,
      (changesOnly_outcome s .continued).mono (by simp)⟩

theorem exec_jmp {s : State} {a : Operand} {va : Lit} (ha : value s a = .ok va) :
    exec (.jmp a) s = complete (s.jump va) :=
  resolveV_of_value ha fun va => complete (s.jump va)

section
variable {s : State} {a b : Operand} {va vb : Lit} (ha : value s a = .ok va)
  (hb : value s b = .ok vb)
include ha hb

theorem exec_jt :
    exec (.jt a b) s = complete (if va.toNat ≠ 0 then s.jump vb else s) :=
  resolveVV_of_value ha hb fun va vb => complete (if va.toNat ≠ 0 then s.jump vb else s)

theorem exec_jf :
    exec (.jf a b) s = complete (if va.toNat = 0 then s.jump vb else s) :=
  resolveVV_of_value ha hb fun va vb => complete (if va.toNat = 0 then s.jump vb else s)

end

/-- Settles O35: `jmp` completes after the jump to its value. -/
theorem jmpAssignsThePc : Obligations.JmpAssignsThePc := fun _ _ _ ha =>
  assignsPc_of_exec_eq_jump (exec_jmp ha)

/-- Settles O36: both complete after a conditional jump, on opposite conditions. -/
theorem jtAndJfAreComplements : Obligations.JtAndJfAreComplements := fun _ _ _ _ _ ha hb =>
  ⟨assignsPc_of_exec_eq_ite (exec_jt ha hb), assignsPc_of_exec_eq_ite (exec_jf ha hb)⟩

/-! ### Subroutines -/

section
variable {s : State} {a : Operand} {va : Lit} (ha : value s a = .ok va)
include ha

theorem exec_call : exec (.call a) s =
    if 32767 < s.pc.toNat then raise (.operandError .returnAddress s.pc.toNat) s
    else complete ((s.push (s.pc.setWidth 15)).jump va) :=
  resolveV_of_value ha fun va =>
    if Config.litMax < s.pc.toNat then raise (.operandError .returnAddress s.pc.toNat) s
    else complete ((s.push (s.pc.setWidth 15)).jump va)

theorem exec_call_of_le (h : s.pc.toNat ≤ 32767) :
    exec (.call a) s = complete ((s.push (s.pc.setWidth 15)).jump va) :=
  (exec_call ha).trans (if_neg (Nat.not_lt.2 h))

/-- The return address is no literal (the spec's decision D9). -/
theorem exec_call_of_ge (h : 32768 ≤ s.pc.toNat) :
    exec (.call a) s = raise (.operandError .returnAddress s.pc.toNat) s :=
  (exec_call ha).trans (if_pos h)

end

theorem exec_ret_nil {s : State} (h : s.stack = []) :
    exec .ret s = haltMachine .returnOnEmptyStack s :=
  if_pos (by rw [State.stackEmpty, h, List.isEmpty_nil])

theorem exec_ret_cons {s : State} {v : Lit} {rest : List Lit} (h : s.stack = v :: rest) :
    exec .ret s = complete (({ s with stack := rest } : State).jump v) := by
  have hne : ¬ s.stackEmpty = true := by simp [State.stackEmpty, h]
  calc exec .ret s
      = orRaise s s.pop fun top => complete (top.2.jump top.1) := if_neg hne
    _ = complete (({ s with stack := rest } : State).jump v) := by
        rw [State.pop_cons h, orRaise_ok]

/-- Completing after the stack is replaced and a jump changes the stack and `pc`. -/
theorem stack_and_pc_of_exec_eq {i : Instr} {s : State} {vs : List Lit} {v : Lit}
    (h : exec i s = complete (({ s with stack := vs } : State).jump v)) :
    ∃ t, exec i s = .next t ∧ t.stack = vs ∧ t.pc.toNat = v.toNat ∧ t.outcome = .continued ∧
      ChangesOnly [.stack, .pc, .outcome] s t :=
  ⟨_, h.trans (complete_eq _), rfl, State.toNat_jump_pc { s with stack := vs } v, rfl,
    ((changesOnly_stack s vs).trans (changesOnly_jump _ v)).trans
      (changesOnly_outcome _ .continued)⟩

/-- Settles O37, by whether `pc` is a literal. -/
theorem callPushesTheReturnAddress : Obligations.CallPushesTheReturnAddress := by
  intro s a va ha
  refine ⟨fun hle => ?_, fun hge => raisesFault_of_exec_eq (exec_call_of_ge ha hge)⟩
  obtain ⟨t, hexec, hstack, hend⟩ := stack_and_pc_of_exec_eq (exec_call_of_le ha hle)
  exact ⟨t, s.pc.setWidth 15, hexec, hstack, toNat_setWidth_of_le_litMax hle, hend⟩

/-- Settles O38, by whether the stack is empty. -/
theorem retReturnsOrHalts : Obligations.RetReturnsOrHalts := by
  refine fun s => ⟨fun v rest hstack => ?_, fun hnil => haltsWith_of_exec_eq (exec_ret_nil hnil)⟩
  obtain ⟨t, hexec, hrest, hpc, hout, hframe⟩ := stack_and_pc_of_exec_eq (exec_ret_cons hstack)
  exact ⟨t, hexec, hpc, hrest, hout, hframe.mono (by simp)⟩

/-- An instruction whose outcome is Continued has completed with one of the listed effects. -/
theorem does_of_exec_continued {i : Instr} {s t : State} (h : exec i s = .next t)
    (ht : t.outcome = .continued) : ∃ u, Does i s u ∧ t = { u with outcome := .continued } := by
  have heffect := exec_effect i s
  rw [h] at heffect
  generalize hr : Host.Outcome.next t = r at heffect
  cases heffect with
  | raises f hf => cases hr; cases ht
  | halts c hc => cases hr; cases ht
  | does u hu => cases hr; exact ⟨u, hu, rfl⟩

/-- A `call` that continues has pushed `pc`, as a number. -/
theorem call_continued_stack {s t : State} {a : Operand} (h : exec (.call a) s = .next t)
    (ht : t.outcome = .continued) :
    ∃ ra : Lit, t.stack = ra :: s.stack ∧ ra.toNat = s.pc.toNat := by
  obtain ⟨u, hdoes, rfl⟩ := does_of_exec_continued h ht
  cases hdoes with
  | register d v hd => cases hd
  | call _ ra v hra => exact ⟨ra, rfl, hra⟩

/-- Settles O39: `ret` takes the address that `call` has pushed. -/
theorem retUndoesCall : Obligations.RetUndoesCall := by
  intro s t u a hcall ht hu
  obtain ⟨ra, hstack, hra⟩ := call_continued_stack hcall ht
  obtain ⟨hreturn, -⟩ := retReturnsOrHalts u
  obtain ⟨v, hret, hpc, hrest, hout, -⟩ := hreturn ra s.stack (hu.trans hstack)
  exact ⟨v, hret, hout, BitVec.eq_of_toNat_eq (hpc.trans hra), hrest⟩

/-! ### The step of `jmp` -/

/-- Settles O53: `jmp` has one operand word, which has a value under the invariant, and from the state
with both words fetched the instruction does what O35 says. -/
theorem jmpStepFromFetchToOutcome : Obligations.JmpStepFromFetchToOutcome := by
  intro s hs hrun hread
  have hop : Opcode.ofWord 6 = some .jmp := rfl
  refine ⟨fun w hw => ?_, fun f hf => ?_⟩
  · obtain ⟨-, -, -, -, hlegal⟩ := valuePositionResolves s w
    obtain ⟨v, hv⟩ := hlegal hs _ hw
    have hv2 : value (s.fetched 2) (decodeOperand w) = .ok v := (value_congr rfl _).trans hv
    obtain ⟨t, hexec, hpc, hout, hframe⟩ := jmpAssignsThePc (s.fetched 2) _ v hv2
    exact ⟨v, t, hv, (step_of_operand_read hrun hread hop rfl hw).trans hexec, hpc, hout,
      ((changesOnly_fetched s 2).trans hframe).mono (by simp),
      fun hself => BitVec.eq_of_toNat_eq (hpc.trans hself)⟩
  · obtain ⟨c, hc⟩ := memRead_error_addr hf
    exact ⟨_, c, step_of_operand_unread hrun hread hop rfl hf, rfl, hc⟩

end Sys2Proof.Machine
end

section
/-! PROOFS. The ALU (44_alu.md): its operations as the arithmetic of 15-bit vectors, and the six
instructions that complete with their results. -/

namespace Sys2Proof.Machine

/-! ### The operations of the ALU -/

theorem narrow_toNat (n : Nat) : (narrow n).toNat = n % 32768 := BitVec.toNat_ofNat n 15

theorem aluAdd_toNat (va vb : Lit) : (aluAdd va vb).toNat = (va.toNat + vb.toNat) % 32768 :=
  (narrow_toNat _).trans (Nat.mod_mod _ _)

theorem aluMult_toNat (va vb : Lit) : (aluMult va vb).toNat = (va.toNat * vb.toNat) % 32768 :=
  (narrow_toNat _).trans (Nat.mod_mod _ _)

/-- The modulus is that of 15-bit vectors. -/
theorem aluAdd_eq (va vb : Lit) : aluAdd va vb = va + vb :=
  BitVec.eq_of_toNat_eq (aluAdd_toNat va vb)

theorem aluMult_eq (va vb : Lit) : aluMult va vb = va * vb :=
  BitVec.eq_of_toNat_eq (aluMult_toNat va vb)

theorem aluNot_toNat (va : Lit) : (aluNot va).toNat = 32767 - va.toNat := BitVec.toNat_not

/-- A remainder is no longer than the first operand, so narrowing keeps it. -/
theorem narrow_mod_toNat (va vb : Lit) :
    (narrow (va.toNat % vb.toNat)).toNat = va.toNat % vb.toNat :=
  (narrow_toNat _).trans (Nat.mod_eq_of_lt ((Nat.mod_le _ _).trans_lt va.isLt))

theorem aluMod_eq_some_iff {va vb r : Lit} :
    aluMod va vb = some r ↔ ¬ vb.toNat = 0 ∧ narrow (va.toNat % vb.toNat) = r := by
  rw [aluMod, Option.ite_none_left_eq_some, Option.some_inj]

/-- Bits 14 to 0 of a widened literal are the literal. -/
theorem setWidth_setWidth_lit (v : Lit) {w : Nat} (hw : 15 ≤ w) :
    (v.setWidth w).setWidth 15 = v :=
  (BitVec.setWidth_setWidth_of_le v hw).trans (BitVec.setWidth_eq v)

/-- Bits 14 to 0 of a sum do not depend on the bits above them, and those of a product neither. -/
theorem extractLsb'_add_setWidth (va vb : Lit) {w : Nat} (hw : 15 ≤ w) :
    (va.setWidth w + vb.setWidth w).extractLsb' 0 15 = va + vb := by
  rw [← BitVec.setWidth_eq_extractLsb' hw, BitVec.setWidth_add _ _ hw,
    setWidth_setWidth_lit va hw, setWidth_setWidth_lit vb hw]

theorem extractLsb'_mul_setWidth (va vb : Lit) {w : Nat} (hw : 15 ≤ w) :
    (va.setWidth w * vb.setWidth w).extractLsb' 0 15 = va * vb := by
  rw [← BitVec.setWidth_eq_extractLsb' hw, BitVec.setWidth_mul _ _ hw,
    setWidth_setWidth_lit va hw, setWidth_setWidth_lit vb hw]

/-- Settles O45: sum, product and complement of the ALU are those of 15-bit vectors, and its
remainder is that of numbers. -/
theorem aluKeepsTheLow15Bits : Obligations.AluKeepsTheLow15Bits := by
  intro va vb
  refine ⟨?sum, ?product, BitVec.not_not, fun r hr => ?remainder⟩
  case sum => rw [aluAdd_eq, extractLsb'_add_setWidth va vb (by decide)]
  case product => rw [aluMult_eq, extractLsb'_mul_setWidth va vb (by decide)]
  case remainder =>
    obtain ⟨hvb, rfl⟩ := aluMod_eq_some_iff.1 hr
    rw [narrow_mod_toNat]
    exact Nat.mod_lt _ (Nat.pos_of_ne_zero hvb)

/-! ### The instructions -/

section
variable {s : State} {a b : Operand} {va vb : Lit} (d : RegIdx) (ha : value s a = .ok va)
include ha

theorem exec_not : exec (.not (.reg d) a) s = complete (s.setReg d (aluNot va)) :=
  resolveDV_of_value d ha fun d va => complete (s.setReg d (aluNot va))

variable (hb : value s b = .ok vb)
include hb

theorem exec_add : exec (.add (.reg d) a b) s = complete (s.setReg d (aluAdd va vb)) :=
  resolveDVV_of_value d ha hb fun d va vb => complete (s.setReg d (aluAdd va vb))

theorem exec_mult : exec (.mult (.reg d) a b) s = complete (s.setReg d (aluMult va vb)) :=
  resolveDVV_of_value d ha hb fun d va vb => complete (s.setReg d (aluMult va vb))

theorem exec_and : exec (.and (.reg d) a b) s = complete (s.setReg d (aluAnd va vb)) :=
  resolveDVV_of_value d ha hb fun d va vb => complete (s.setReg d (aluAnd va vb))

theorem exec_or : exec (.or (.reg d) a b) s = complete (s.setReg d (aluOr va vb)) :=
  resolveDVV_of_value d ha hb fun d va vb => complete (s.setReg d (aluOr va vb))

theorem exec_mod : exec (.mod (.reg d) a b) s =
    orRaise s (remainder va vb) fun v => complete (s.setReg d v) :=
  resolveDVV_of_value d ha hb fun d va vb =>
    orRaise s (remainder va vb) fun v => complete (s.setReg d v)

theorem exec_mod_of_ne_zero (h : ¬ vb.toNat = 0) :
    exec (.mod (.reg d) a b) s = complete (s.setReg d (narrow (va.toNat % vb.toNat))) := by
  rw [exec_mod d ha hb, remainder_pos va h, orRaise_ok]

/-- A zero divisor (the spec's decision D7). -/
theorem exec_mod_of_zero (h : vb.toNat = 0) :
    exec (.mod (.reg d) a b) s = raise (.operandError .modZero 0) s := by
  rw [exec_mod d ha hb, remainder_zero va h, orRaise_error]

end

/-- Settles O40: `add` completes after assigning the ALU's sum. -/
theorem addIsModulo32768 : Obligations.AddIsModulo32768 := by
  intro s d a b va vb ha hb
  rw [← aluAdd_toNat]
  exact writesRegister_of_exec_eq (exec_add d ha hb)

/-- Settles O41: `mult` completes after assigning the ALU's product. -/
theorem multIsModulo32768 : Obligations.MultIsModulo32768 := by
  intro s d a b va vb ha hb
  rw [← aluMult_toNat]
  exact writesRegister_of_exec_eq (exec_mult d ha hb)

/-- Settles O44: `not` completes after assigning the ALU's complement. -/
theorem notIsThe15BitComplement : Obligations.NotIsThe15BitComplement := by
  intro s d a va ha
  rw [← aluNot_toNat]
  exact writesRegister_of_exec_eq (exec_not d ha)

/-- Settles O42: a number below the divisor that completes a multiple of it to the dividend is the
remainder, and the divisor is then not 0. -/
theorem modIsTheRemainder : Obligations.ModIsTheRemainder := by
  intro s d a b va vb ha hb
  refine ⟨fun q rem hva hrem => ?_,
    fun hvb => raisesFault_of_exec_eq (exec_mod_of_zero d ha hb hvb)⟩
  have hmod : va.toNat % vb.toNat = rem := by
    rw [hva, Nat.mul_add_mod_self_right, Nat.mod_eq_of_lt hrem]
  rw [← hmod, ← narrow_mod_toNat]
  exact writesRegister_of_exec_eq (exec_mod_of_ne_zero d ha hb (Nat.ne_zero_of_lt hrem))

/-- Completing after a register assignment gives that register the bits of the value. -/
theorem writesBits_of_exec_eq {i : Instr} {s : State} {d : RegIdx} {v : Lit} {bit : Nat → Bool}
    (h : exec i s = complete (s.setReg d v)) (hv : ∀ j, v.getLsbD j = bit j) :
    ∃ t, exec i s = .next t ∧ t.outcome = .continued ∧ ChangesOnly [.reg d, .outcome] s t ∧
      ∀ j, j < 15 → (t.getReg d).getLsbD j = bit j := by
  obtain ⟨t, hexec, hreg, hout, hframe⟩ := writesRegister_of_exec_eq h
  exact ⟨t, hexec, hout, hframe, fun j _ => BitVec.eq_of_toNat_eq hreg ▸ hv j⟩

/-- Settles O43: `and` and `or` complete after assigning the ALU's results, whose bits the library's
lemmas on bit vectors give. -/
theorem andOrActBitByBit : Obligations.AndOrActBitByBit := fun _ d _ _ _ _ ha hb =>
  ⟨writesBits_of_exec_eq (exec_and d ha hb) fun _ => BitVec.getLsbD_and,
    writesBits_of_exec_eq (exec_or d ha hb) fun _ => BitVec.getLsbD_or⟩

end Sys2Proof.Machine
end

section
/-! PROOFS. The load and the store (45_memory_access.md): the value of a literal addresses a cell in
the address space and is a legal word, so `rmem` is decided by the cell and `wmem` always stores. -/

namespace Sys2Proof.Machine

/-! ### `rmem` -/

section
variable {s : State} {a : Operand} {va : Lit} (d : RegIdx) (ha : value s a = .ok va)
include ha

theorem exec_rmem : exec (.rmem (.reg d) a) s =
    orRaise s (memRead s.mem va.toNat) fun w =>
      if 32767 < w.toNat then raise (.operandError .nonLiteralData w.toNat) s
      else complete (s.setReg d (w.setWidth 15)) :=
  resolveDV_of_value d ha fun d va => orRaise s (memRead s.mem va.toNat) fun w =>
    if Config.litMax < w.toNat then raise (.operandError .nonLiteralData w.toNat) s
    else complete (s.setReg d (w.setWidth 15))

theorem exec_rmem_of_unwritten (hcell : s.mem.cell va.toNat = none) :
    exec (.rmem (.reg d) a) s = raise (.memoryFault .unwritten va.toNat) s := by
  rw [exec_rmem d ha, memRead_error.2 (.inr ⟨va.isLt, hcell, rfl⟩), orRaise_error]

variable {w : Word} (hcell : s.mem.cell va.toNat = some w)
include hcell

theorem exec_rmem_of_written : exec (.rmem (.reg d) a) s =
    if 32767 < w.toNat then raise (.operandError .nonLiteralData w.toNat) s
    else complete (s.setReg d (w.setWidth 15)) := by
  rw [exec_rmem d ha, memRead_ok.2 ⟨va.isLt, hcell⟩, orRaise_ok]

theorem exec_rmem_of_literal (hw : w.toNat ≤ 32767) :
    exec (.rmem (.reg d) a) s = complete (s.setReg d (w.setWidth 15)) :=
  (exec_rmem_of_written d ha hcell).trans (if_neg (Nat.not_lt.2 hw))

/-- The word in the cell is no literal (the spec's decision D8). -/
theorem exec_rmem_of_nonLiteral (hw : 32768 ≤ w.toNat) :
    exec (.rmem (.reg d) a) s = raise (.operandError .nonLiteralData w.toNat) s :=
  (exec_rmem_of_written d ha hcell).trans (if_pos hw)

end

/-- Settles O46, by what the addressed cell holds. -/
theorem rmemLoadsALiteral : Obligations.RmemLoadsALiteral := by
  intro s d a va ha
  refine ⟨fun w hcell hw => ?literal, fun hcell => ?unwritten, fun w hcell hw => ?nonLiteral⟩
  case literal =>
    rw [← toNat_setWidth_of_le_litMax hw]
    exact writesRegister_of_exec_eq (exec_rmem_of_literal d ha hcell hw)
  case unwritten => exact raisesFault_of_exec_eq (exec_rmem_of_unwritten d ha hcell)
  case nonLiteral => exact raisesFault_of_exec_eq (exec_rmem_of_nonLiteral d ha hcell hw)

/-! ### `wmem` -/

/-- Storing a word changes one cell only (20_memory.md rule R43). -/
theorem changesOnly_put (s : State) (a : Nat) (w : Word) :
    ChangesOnly [.cell a] s { s with mem := s.mem.put a w } := by
  intro p hp
  cases p with
  | cell b => exact s.mem.cell_put_ne w (by simpa using hp)
  | _ => rfl

theorem memWrite_lit (m : Memory) (va vb : Lit) :
    memWrite m va.toNat vb.toNat = .ok (m.put va.toNat (vb.setWidth 16)) := by
  have hvb : vb.toNat ≤ 32775 := (Nat.le_of_lt vb.isLt).trans (by decide)
  rw [memWrite_legal hvb va.isLt, BitVec.ofNat_toNat]

theorem exec_wmem {s : State} {a b : Operand} {va vb : Lit} (ha : value s a = .ok va)
    (hb : value s b = .ok vb) : exec (.wmem a b) s =
      complete { s with mem := s.mem.put va.toNat (vb.setWidth 16) } := by
  calc exec (.wmem a b) s
      = orRaise s (memWrite s.mem va.toNat vb.toNat) fun m => complete { s with mem := m } :=
        resolveVV_of_value ha hb fun va vb =>
          orRaise s (memWrite s.mem va.toNat vb.toNat) fun m => complete { s with mem := m }
    _ = complete { s with mem := s.mem.put va.toNat (vb.setWidth 16) } := by
        rw [memWrite_lit, orRaise_ok]

/-- Settles O47: `wmem` completes after storing the word of its second value. -/
theorem wmemStoresTheLiteral : Obligations.WmemStoresTheLiteral := fun s _ _ va vb ha hb =>
  ⟨_, vb.setWidth 16, (exec_wmem ha hb).trans (complete_eq _),
    s.mem.cell_put_same va.toNat _, Operand.toNat_word_lit vb, rfl,
    (changesOnly_put s va.toNat _).trans (changesOnly_outcome _ .continued)⟩

end Sys2Proof.Machine
end

section
/-! PROOFS. Input and output (46_io.md): `out` is decided by whether its value is a character code,
and `in` by whether a unit is left. -/

namespace Sys2Proof.Machine

/-! ### `out` -/

/-- Emitting a character code changes the output only (46_io.md rule R192). -/
theorem changesOnly_emit (s : State) (c : Code) : ChangesOnly [.output] s (s.emit c) := by
  intro p hp
  cases p with
  | output => simp at hp
  | _ => rfl

/-- The character code of a literal below 128 is its number (rule R190). -/
theorem toNat_setWidth_of_lt_outLimit {v : Lit} (h : v.toNat < 128) :
    (v.setWidth 7).toNat = v.toNat :=
  (BitVec.toNat_setWidth 7 v).trans (Nat.mod_eq_of_lt h)

section
variable {s : State} {a : Operand} {va : Lit} (ha : value s a = .ok va)
include ha

theorem exec_out : exec (.out a) s =
    if 128 ≤ va.toNat then raise (.operandError .outRange va.toNat) s
    else complete (s.emit (va.setWidth 7)) :=
  resolveV_of_value ha fun va =>
    if Config.outLimit ≤ va.toNat then raise (.operandError .outRange va.toNat) s
    else complete (s.emit (va.setWidth 7))

theorem exec_out_of_lt (h : va.toNat < 128) :
    exec (.out a) s = complete (s.emit (va.setWidth 7)) :=
  (exec_out ha).trans (if_neg (Nat.not_le.2 h))

/-- The value is no character code (90_conflicts.md C1). -/
theorem exec_out_of_ge (h : 128 ≤ va.toNat) :
    exec (.out a) s = raise (.operandError .outRange va.toNat) s :=
  (exec_out ha).trans (if_pos h)

end

/-- Settles O48, by whether the value is a character code. -/
theorem outEmitsBelow128 : Obligations.OutEmitsBelow128 := by
  intro s a va ha
  refine ⟨fun hlt => ?_, fun hge => raisesFault_of_exec_eq (exec_out_of_ge ha hge)⟩
  exact ⟨_, va.setWidth 7, (exec_out_of_lt ha hlt).trans (complete_eq _), rfl,
    toNat_setWidth_of_lt_outLimit hlt, rfl,
    (changesOnly_emit s _).trans (changesOnly_outcome _ .continued)⟩

/-! ### `in` -/

/-- Assigning the input changes the input only (46_io.md rule R193). -/
theorem changesOnly_input (s : State) (units : List Lit) :
    ChangesOnly [.input] s { s with input := units } := by
  intro p hp
  cases p with
  | input => simp at hp
  | _ => rfl

theorem exec_inp (s : State) (d : RegIdx) : exec (.inp (.reg d)) s =
    orHalt .ioExhausted s s.takeInput fun unit => complete (unit.2.setReg d unit.1) := rfl

theorem exec_inp_nil {s : State} (d : RegIdx) (h : s.input = []) :
    exec (.inp (.reg d)) s = haltMachine .ioExhausted s := by
  rw [exec_inp, State.takeInput_nil h, orHalt_none]

theorem exec_inp_cons {s : State} (d : RegIdx) {c : Lit} {rest : List Lit}
    (h : s.input = c :: rest) :
    exec (.inp (.reg d)) s = complete (({ s with input := rest } : State).setReg d c) := by
  rw [exec_inp, State.takeInput_cons h, orHalt_some]

/-- Settles O49, by whether a unit is left. -/
theorem inTakesOneUnitOrHalts : Obligations.InTakesOneUnitOrHalts := by
  intro s d
  refine ⟨fun c rest hinput => ?_, fun hnil => haltsWith_of_exec_eq (exec_inp_nil d hnil)⟩
  have hframe := ((changesOnly_input s rest).trans (changesOnly_setReg _ d c)).trans
    (changesOnly_outcome _ .continued)
  exact ⟨_, (exec_inp_cons d hinput).trans (complete_eq _), State.getReg_setReg_same _ d c, rfl, rfl,
    hframe.mono (by simp)⟩

end Sys2Proof.Machine
end

section
/-! PROOFS. The ends of a step whatever its instruction (60_exceptions.md rule R200, R208, R210, R215,
R225): a step always has a next state, a halted machine stays as it is, and a faulted step has only
fetched words. -/

namespace Sys2Proof.Machine

/-! ### Totality and the count of steps -/

/-- An instruction ends in one of the three ends of a step, each of which has a next state. -/
theorem exists_next_of_exec (i : Instr) (s : State) : ∃ t, exec i s = .next t := by
  generalize hr : exec i s = r
  have heffect := exec_effect i s
  rw [hr] at heffect
  cases heffect with
  | raises f => exact ⟨_, raise_eq f s⟩
  | halts c => exact ⟨_, haltMachine_eq c s⟩
  | does u => exact ⟨_, complete_eq u⟩

/-- Settles O17, by the ways through the cycle. -/
theorem everyStepHasANextState : Obligations.EveryStepHasANextState := by
  intro s
  cases hrun : s.run with
  | halted c => exact ⟨_, step_of_halted hrun⟩
  | running =>
    rcases step_of_running hrun with ⟨k, f, -, -, hstep⟩ | ⟨i, -, -, hstep⟩
    · exact ⟨_, hstep.trans (raise_eq f _)⟩
    · exact hstep ▸ exists_next_of_exec i _

/-- Settles O27: the fetches of a running machine count the step, and no instruction touches the
count. -/
theorem cycleCounterCountsRunningSteps : Obligations.CycleCounterCountsRunningSteps := by
  intro s t hstep
  cases stepTo_of_step hstep with
  | stays c hrun => simp [hrun]
  | faults k f hrun => simp [hrun]
  | halts i c hrun => simp [hrun]
  | does i u hrun hi hk h =>
    obtain ⟨-, -, hsupervisor⟩ := h.keeps
    simp [hrun, hsupervisor]

/-! ### Halted machines -/

/-- Settles O15: a step of a halted machine records an outcome, and the machine is halted again. -/
theorem haltedIsTerminal : Obligations.HaltedIsTerminal := by
  refine ⟨fun s c hrun => ⟨_, step_of_halted hrun, rfl, changesOnly_outcome s .halted⟩,
    fun s t c hrun hreach => ?_⟩
  induction hreach with
  | refl => exact fun p _ => p.same_refl s
  | @next t u _ hstep ih =>
    have ht : t.run = .halted c := (ih .run (by simp)).trans hrun
    rw [step_of_halted ht] at hstep
    cases hstep
    exact (ih.trans (changesOnly_outcome t .halted)).mono (by simp)

/-! ### Faulted steps -/

/-- How many words a step has fetched when it faults, by what the decoder reads at `pc`
(the spec's decision D5). -/
def wordsBeforeFault : Except DecodeReject (Instr × List Word) → Nat
  | .error .noOpcodeWord => 0
  | .error (.unknownOpcode _) => 1
  | .error (.truncated _ got) => 1 + got
  | .ok (i, _) => i.length

theorem StepFault.eq_wordsBeforeFault {s : State} {k : Nat} {f : Fault} (h : StepFault s k f) :
    k = wordsBeforeFault s.decoded := by
  cases h with
  | noOpcodeWord hdec => rw [hdec, wordsBeforeFault]
  | truncated op got hdec => rw [hdec, wordsBeforeFault]
  | unknownOpcode w hdec => rw [hdec, wordsBeforeFault]
  | raises i hi =>
    obtain ⟨rest, hdec⟩ := hi
    rw [hdec, wordsBeforeFault]

/-- A step whose outcome is a fault has fetched words and raised it. -/
theorem StepTo.eq_of_faulted {s t : State} {f : Fault} (h : StepTo s t)
    (ht : t.outcome = .faulted f) :
    ∃ k, s.run = .running ∧ s.canFetch k ∧ StepFault s k f ∧
      t = { s.fetched k with outcome := .faulted f, firstFault := s.firstFault.or (some f) } := by
  cases h with
  | faults k g hrun hk h =>
    obtain rfl : g = f := by simpa using ht
    exact ⟨k, hrun, hk, h, rfl⟩
  | _ => cases ht

/-- Fetching and then raising a fault changes `pc` and the records of the step only. -/
theorem changesOnly_fetched_faulted (s : State) (k : Nat) (f : Fault) :
    ChangesOnly [.pc, .outcome, .firstFault, .cycles] s
      { s.fetched k with outcome := .faulted f, firstFault := s.firstFault.or (some f) } :=
  ((changesOnly_fetched s k).trans (changesOnly_faulted (s.fetched k) f)).mono (by simp)

/-- Settles O16: the state after a faulted step is the one with the words fetched, and the decoder
says how many they are. -/
theorem faultedStepChangesOnlyThePc : Obligations.FaultedStepChangesOnlyThePc := by
  intro s t f hstep ht
  obtain ⟨k, hrun, hk, hfault, rfl⟩ := (stepTo_of_step hstep).eq_of_faulted ht
  have hpc : (s.fetched k).pc.toNat = s.pc.toNat + wordsBeforeFault s.decoded := by
    rw [hk.toNat_pc, hfault.eq_wordsBeforeFault]
  refine ⟨⟨rfl, hrun⟩, by simp [State.safe], changesOnly_fetched_faulted s k f,
    fun hdec => ?_, fun w hdec => ?_, fun op got hdec => ?_, fun i rest hdec => ?_⟩
  all_goals rw [hdec] at hpc
  · exact BitVec.eq_of_toNat_eq hpc
  · exact hpc
  · exact hpc.trans (Nat.add_assoc _ _ _).symm
  · exact hpc

/-- Settles O14: a word above every id selects no opcode, and the fault is raised with that word
fetched. -/
theorem unknownOpcodeRaisesDecodeError : Obligations.UnknownOpcodeRaisesDecodeError := by
  intro s w hrun hread hw
  obtain ⟨-, hnone⟩ := opcodeWordsSelectByNumber w
  exact ⟨_, step_of_unknownOpcode hrun hread (hnone.2 hw), rfl, State.fetched_one_pc_toNat hread,
    changesOnly_fetched_faulted s 1 _⟩

/-- Settles O60: at power-on cell 0 is unwritten, so the fetch of the opcode word faults there. -/
theorem powerOnFirstStepFaults : Obligations.PowerOnFirstStepFaults := by
  have hread : memRead State.reset.mem State.reset.pc.toNat =
      .error (.memoryFault .unwritten 0) := rfl
  exact ⟨rfl, _, step_of_unread rfl hread, rfl, rfl, rfl⟩

end Sys2Proof.Machine
end

section
/-! PROOFS. The resolution of operands that are not legal (60_exceptions.md rule R203, R209): an
instruction decodes its destination before anything else, and then resolves its value operands in
word order. -/

namespace Sys2Proof.Machine

/-- An instruction with a destination decodes it first (the spec's decision D4). -/
theorem exec_eq_orRaise_dest {i : Instr} {r : Operand} (s : State) (h : i.destination = some r) :
    ∃ k, exec i s = orRaise s (dest r) k := by
  cases i with
  | pop | inp | set | not | rmem | eq | gt | add | mult | mod | and | or => cases h; exact ⟨_, rfl⟩
  | _ => cases h

/-- Settles O50: the destination is decoded first, and an operand that is no register fails there. -/
theorem badDestinationComesFirst : Obligations.BadDestinationComesFirst := by
  intro i r s hi hr
  obtain ⟨k, hexec⟩ := exec_eq_orRaise_dest s hi
  exact raisesFault_of_exec_eq (by rw [hexec, dest_error_of_okDest hr, orRaise_error])

/-- A result that resolves these operands as values, in order and before anything else. -/
def ResolvesInOrder (s : State) : List Operand → Result → Prop
  | [], _ => True
  | a :: as, x => ∃ k : Lit → Result, x = orRaise s (value s a) k ∧ ∀ v, ResolvesInOrder s as (k v)

/-- The first operand that has no value raises its fault. -/
theorem ResolvesInOrder.eq_raise {s : State} {os : List Operand} {x : Result} {w : Word}
    (h : ResolvesInOrder s os x) (hw : (os.find? fun o => !o.okValue) = some (.invalid w)) :
    x = raise (.operandError .invalidWord w.toNat) s := by
  induction os generalizing x with
  | nil => cases hw
  | cons a as ih =>
    obtain ⟨k, rfl, hk⟩ := h
    cases hv : value s a with
    | ok v =>
      have ha : a.okValue = true := (value_ok_iff s a).1 ⟨v, hv⟩
      exact ih (hk v) (by simpa [ha] using hw)
    | error f =>
      obtain ⟨u, rfl, rfl⟩ := value_error hv
      obtain rfl : u = w := by simpa [Operand.okValue] using hw
      rfl

/-- A register in a destination position counts as a value that is there. -/
theorem ResolvesInOrder.cons_reg {s : State} {as : List Operand} {x : Result} (d : RegIdx)
    (h : ResolvesInOrder s as x) : ResolvesInOrder s (.reg d :: as) x :=
  ⟨fun _ => x, rfl, fun _ => h⟩

theorem resolveV_resolves (s : State) (a : Operand) (k : Lit → Result) :
    ResolvesInOrder s [a] (resolveV s a k) :=
  ⟨k, rfl, fun _ => trivial⟩

theorem resolveVV_resolves (s : State) (a b : Operand) (k : Lit → Lit → Result) :
    ResolvesInOrder s [a, b] (resolveVV s a b k) :=
  ⟨_, rfl, fun va => resolveV_resolves s b (k va)⟩

theorem okDest_iff_exists_reg {r : Operand} : r.okDest = true ↔ ∃ d, r = .reg d := by
  cases r <;> simp [Operand.okDest]

/-- With a good destination, an instruction resolves its operands in word order. -/
theorem exec_resolves {i : Instr} (s : State)
    (h : ∀ r, i.destination = some r → r.okDest = true) :
    ResolvesInOrder s i.operands (exec i s) := by
  cases i with
  | halt | ret | noop => trivial
  | push a | jmp a | call a | out a => exact resolveV_resolves s a _
  | jt a b | jf a b | wmem a b => exact resolveVV_resolves s a b _
  | pop r | inp r =>
    obtain ⟨d, rfl⟩ := okDest_iff_exists_reg.1 (h r rfl)
    exact .cons_reg d trivial
  | set r a | not r a | rmem r a =>
    obtain ⟨d, rfl⟩ := okDest_iff_exists_reg.1 (h r rfl)
    exact .cons_reg d (resolveV_resolves s a _)
  | eq r a b | gt r a b | add r a b | mult r a b | mod r a b | and r a b | or r a b =>
    obtain ⟨d, rfl⟩ := okDest_iff_exists_reg.1 (h r rfl)
    exact .cons_reg d (resolveVV_resolves s a b _)

/-- Settles O51: the operands are resolved in order, so the first one without a value is the one that
faults. -/
theorem invalidValueWordFaults : Obligations.InvalidValueWordFaults :=
  fun _ _ s hdest hw => raisesFault_of_exec_eq ((exec_resolves s hdest).eq_raise hw)

end Sys2Proof.Machine
end

section
/-! PROOFS. Reset (70_reset_and_hazards.md rule R250, R254). -/

namespace Sys2Proof.Machine

/-- A load that succeeds has kept the image and done the reset initialisation. -/
theorem load_ok {ws : List Word} {s t : State} (h : load ws s = .ok t) :
    t = hostReset { s with program := ws } := by
  unfold load at h
  split at h
  · cases h
  · split at h
    · cases h
    · cases h
      rfl

/-- Settles O55: a reset depends on the kept image, which no step changes, on the streams and on the
debug controller's state. -/
theorem resetAfterAnyRunRestoresTheLoad : Obligations.ResetAfterAnyRunRestoresTheLoad := by
  intro ws s s0 t hload hreach
  obtain rfl := load_ok hload
  obtain ⟨hprogram, -⟩ := stepsKeepImageAndDebugSets _ t hreach
  rw [hostReset, hprogram]
  rfl

end Sys2Proof.Machine
end

section
/-! PROOFS. The debug controller (60_exceptions.md rule R220 to rule R228): what its moves on the
state keep, and where a run of steps stops. -/

namespace Sys2Proof.Machine

/-! ### Runs of steps -/

/-- The step from `s` leads to `t`, and a run goes on from there. -/
def State.passesTo (s t : State) : Prop :=
  step s = .next t ∧ t.outcome = .continued ∧ t.stopCheck = none

theorem advance_succ_of_passesTo {s t : State} (n : Nat) (h : s.passesTo t) :
    advance (n + 1) s = advance n t := by
  obtain ⟨hstep, hout, hcheck⟩ := h
  simp only [advance, hstep, hout, hcheck, if_true]

theorem advance_succ_of_stopCheck {s t : State} {r : StopReason} (n : Nat) (hstep : step s = .next t)
    (hout : t.outcome = .continued) (hcheck : t.stopCheck = some r) :
    advance (n + 1) s = (t, .stopped r) := by
  simp only [advance, hstep, hout, hcheck, if_true]

theorem advance_succ_of_outcome {s t : State} (n : Nat) (hstep : step s = .next t)
    (hout : t.outcome ≠ .continued) : advance (n + 1) s = (t, .outcome t.outcome) := by
  simp only [advance, hstep, hout, if_false]

/-- Everything a run can do with its first step. -/
theorem advance_succ_cases (n : Nat) (s : State) :
    ∃ t, step s = .next t ∧
      (s.passesTo t ∧ advance (n + 1) s = advance n t ∨
        (∃ r, t.outcome = .continued ∧ t.stopCheck = some r ∧
          advance (n + 1) s = (t, .stopped r)) ∨
        advance (n + 1) s = (t, .outcome t.outcome)) := by
  obtain ⟨t, hstep⟩ := everyStepHasANextState s
  refine ⟨t, hstep, ?_⟩
  by_cases hout : t.outcome = .continued
  · cases hcheck : t.stopCheck with
    | none =>
      have hpass : s.passesTo t := ⟨hstep, hout, hcheck⟩
      exact .inl ⟨hpass, advance_succ_of_passesTo n hpass⟩
    | some r => exact .inr (.inl ⟨r, hout, rfl, advance_succ_of_stopCheck n hstep hout hcheck⟩)
  · exact .inr (.inr (advance_succ_of_outcome n hstep hout))

/-- A run makes all its steps exactly when it goes on after the first one and makes the rest. -/
theorem advance_succ_eq_cyclesDone_iff {n : Nat} {s t : State} :
    advance (n + 1) s = (t, .cyclesDone) ↔
      ∃ u, s.passesTo u ∧ advance n u = (t, .cyclesDone) := by
  constructor
  · intro h
    obtain ⟨u, -, ⟨hpass, hrun⟩ | ⟨r, -, -, hrun⟩ | hrun⟩ := advance_succ_cases n s
    · exact ⟨u, hpass, hrun ▸ h⟩
    · simp [hrun] at h
    · simp [hrun] at h
  · rintro ⟨u, hpass, h⟩
    rwa [advance_succ_of_passesTo n hpass]

/-- A run that makes all its steps goes on as a run from the state it reached. -/
theorem advance_add {k : Nat} {s u : State} (m : Nat) (h : advance k s = (u, .cyclesDone)) :
    advance (k + m) s = advance m u := by
  induction k generalizing s with
  | zero =>
    cases h
    rw [Nat.zero_add]
  | succ k ih =>
    obtain ⟨v, hpass, hrun⟩ := advance_succ_eq_cyclesDone_iff.1 h
    rw [Nat.succ_add, advance_succ_of_passesTo _ hpass, ih hrun]

/-- A run that makes all its steps has made its first ones. -/
theorem exists_advance_of_add {k m : Nat} {s t : State} (h : advance (k + m) s = (t, .cyclesDone)) :
    ∃ u, advance k s = (u, .cyclesDone) := by
  induction k generalizing s with
  | zero => exact ⟨s, rfl⟩
  | succ k ih =>
    rw [Nat.succ_add] at h
    obtain ⟨v, hpass, hrun⟩ := advance_succ_eq_cyclesDone_iff.1 h
    obtain ⟨u, hu⟩ := ih hrun
    exact ⟨u, advance_succ_eq_cyclesDone_iff.2 ⟨v, hpass, hu⟩⟩

/-- A run that makes all its steps has passed the check after the last of them. -/
theorem stopCheck_of_advance {k : Nat} {s t : State} (h : advance (k + 1) s = (t, .cyclesDone)) :
    t.stopCheck = none := by
  induction k generalizing s with
  | zero =>
    obtain ⟨u, ⟨-, -, hcheck⟩, hrun⟩ := advance_succ_eq_cyclesDone_iff.1 h
    cases hrun
    exact hcheck
  | succ k ih =>
    obtain ⟨u, -, hrun⟩ := advance_succ_eq_cyclesDone_iff.1 h
    exact ih hrun

/-- Breakpoints are checked before the other reasons to stop (rule R221). -/
theorem State.stopCheck_eq_breakpoint_iff {s : State} :
    s.stopCheck = some .breakpoint ↔ s.pc.toNat ∈ s.supervisor.breakpoints := by
  unfold State.stopCheck
  split
  · next h => simp [h]
  · next h =>
    simp only [h, iff_false]
    split
    · nofun
    · split <;> nofun

theorem advance_stopped_breakpoint {n : Nat} {s t : State}
    (h : advance n s = (t, .stopped .breakpoint)) :
    t.outcome = .continued ∧ t.pc.toNat ∈ t.supervisor.breakpoints := by
  induction n generalizing s with
  | zero => cases h
  | succ n ih =>
    obtain ⟨u, -, ⟨-, hrun⟩ | ⟨r, hout, hcheck, hrun⟩ | hrun⟩ := advance_succ_cases n s
    · exact ih (hrun ▸ h)
    · rw [hrun] at h
      cases h
      exact ⟨hout, State.stopCheck_eq_breakpoint_iff.1 hcheck⟩
    · rw [hrun] at h
      cases h

/-- A step of a running machine that continues leaves it running, one step further. -/
theorem State.passesTo.run_and_cycles {s t : State} (h : s.passesTo t) (hrun : s.run = .running) :
    t.run = .running ∧ t.supervisor.cycles = s.supervisor.cycles + 1 := by
  obtain ⟨hstep, hout, -⟩ := h
  obtain ⟨hhalted, -⟩ := (stepTo_of_step hstep).outcome_run
  refine ⟨by simpa [hout] using hhalted, ?_⟩
  rw [cycleCounterCountsRunningSteps s t hstep, if_pos hrun]

theorem advance_cycles {n : Nat} {s t : State} (hrun : s.run = .running)
    (h : advance n s = (t, .cyclesDone)) : t.supervisor.cycles = s.supervisor.cycles + n := by
  induction n generalizing s with
  | zero =>
    cases h
    rfl
  | succ n ih =>
    obtain ⟨u, hpass, hadvance⟩ := advance_succ_eq_cyclesDone_iff.1 h
    obtain ⟨hu, hcycles⟩ := hpass.run_and_cycles hrun
    rw [ih hu hadvance, hcycles]
    omega

/-- Settles O58: a run goes on from where its first steps led, and the check after each step looks at
the breakpoints first. -/
theorem runStopsAtBreakpoints : Obligations.RunStopsAtBreakpoints := by
  refine ⟨fun k n s u t hk hstep hout hbreak => ?_, fun n s t => advance_stopped_breakpoint,
    fun k n s t hpos hk h => ?_, fun n s t => advance_cycles⟩
  · obtain ⟨-, hpoints, -⟩ := (stepTo_of_step hstep).keeps
    have hcheck := State.stopCheck_eq_breakpoint_iff.2 (hpoints ▸ hbreak)
    rw [advance_add _ hk, advance_succ_of_stopCheck n hstep hout hcheck]
  · obtain ⟨k, rfl⟩ := Nat.exists_eq_succ_of_ne_zero (Nat.ne_of_gt hpos)
    obtain ⟨m, rfl⟩ := Nat.exists_eq_add_of_le hk
    obtain ⟨u, hu⟩ := exists_advance_of_add h
    have hcheck := stopCheck_of_advance hu
    refine ⟨u, hu, fun hbreak => ?_⟩
    simp [State.stopCheck_eq_breakpoint_iff.2 hbreak] at hcheck

/-! ### Dump and restore -/

/-- The numbers of literals keep the host's duty for register and stack values (rule R223). -/
theorem literals_map_toNat (vs : List Lit) : literals (vs.map BitVec.toNat) = true := by
  simp only [literals, List.all_map, List.all_eq_true, Function.comp_apply, decide_eq_true_eq]
  exact fun v _ => Nat.le_of_lt_succ v.isLt

theorem registersOf_registerList (s : State) : registersOf s.registerList = s.regs := by
  apply Vector.ext
  intro i hi
  simp [registersOf, State.registerList]

/-- A snapshot of a state whose `pc` is in its range can be restored anywhere. -/
theorem restoreSnapshot_snapshot {s : State} (hpc : s.pc.toNat ≤ 32768) (u : State) :
    restoreSnapshot s.snapshot u = some { u with pc := s.pc, regs := s.regs, stack := s.stack } := by
  have hlength : s.registerList.length = Config.nregs := by simp [State.registerList]
  have hduties : s.snapshot.pc ≤ Config.memWords ∧ s.snapshot.registers.length = Config.nregs ∧
      literals s.snapshot.registers ∧ literals s.snapshot.stack :=
    ⟨hpc, hlength, literals_map_toNat _, literals_map_toNat _⟩
  have hstack : (s.stack.map BitVec.toNat).map (BitVec.ofNat 15) = s.stack := by
    simp [Function.comp_def]
  rw [restoreSnapshot, if_pos hduties]
  simp [State.snapshot, registersOf_registerList, hstack]

/-- Assigning `pc`, the registers and the stack changes nothing else. -/
theorem same_restored (u : State) (pc : Word) (regs : Vector Lit Config.nregs)
    (stack : List Lit) {p : Part} (hreg : ∀ i, p ≠ .reg i) (hp : p ∉ [.pc, .stack]) :
    p.same u { u with pc := pc, regs := regs, stack := stack } := by
  cases p with
  | reg i => exact absurd rfl (hreg i)
  | pc => simp at hp
  | stack => simp at hp
  | _ => rfl

/-- Settles O57: `dump` gives the snapshot, which can be restored. -/
theorem dumpThenRestoreReproduces : Obligations.DumpThenRestoreReproduces := by
  intro s u n m hs
  refine ⟨s.snapshot, s.coreDump, { u with pc := s.pc, regs := s.regs, stack := s.stack }, rfl, ?_,
    rfl, rfl, rfl, fun p => same_restored u s.pc s.regs s.stack⟩
  rw [execute, restoreSnapshot_snapshot hs.pcBound]

/-! ### The invariant -/

/-- The host may assign registers, stack and the debug controller's state freely, and `pc` and memory
within their ranges (rule R223). -/
theorem State.Inv.hostMove {s : State} (hs : s.Inv) {pc : Word} {mem : Memory}
    {regs : Vector Lit Config.nregs} {stack : List Lit} {supervisor : Debug}
    (hpc : pc.toNat ≤ 32768) (hwf : mem.wf = true) (hlegal : mem.legal = true) :
    State.Inv { s with
      pc := pc, mem := mem, regs := regs, stack := stack, supervisor := supervisor } :=
  ⟨hwf, hlegal, hpc, hs.programLegal, hs.haltedOutcome, hs.faultRecorded⟩

theorem toNat_ofNat_le {n : Nat} (h : n ≤ 32768) : (BitVec.ofNat 16 n).toNat ≤ 32768 := by
  rw [BitVec.toNat_ofNat]
  omega

theorem advance_keeps_inv (n : Nat) {s : State} (hs : s.Inv) : (advance n s).1.Inv := by
  induction n generalizing s with
  | zero => exact hs
  | succ n ih =>
    obtain ⟨t, hstep, hcases⟩ := advance_succ_cases n s
    have ht := stepKeepsTheInvariant s t hs hstep
    obtain ⟨-, hrun⟩ | ⟨r, -, -, hrun⟩ | hrun := hcases
    · exact hrun ▸ ih ht
    · exact hrun ▸ ht
    · exact hrun ▸ ht

theorem hostReset_keeps_inv {s : State} (hs : s.Inv) : (hostReset s).Inv :=
  State.inv_resetWith _ _ _ _ hs.programLegal

/-- A checked move that succeeds has passed its check. -/
theorem of_ite_eq_ok {c : Prop} [Decidable c] {e : CommandError} {u t : State}
    (h : (if c then .ok u else .error e : Except CommandError State) = .ok t) : c ∧ u = t := by
  split at h
  · next hc => exact ⟨hc, Except.ok.inj h⟩
  · cases h

/-- A store that the host makes is a MemWrite. -/
theorem setTarget_memory_ok {a v : Nat} {s t : State} (h : setTarget (.memory a) [v] s = .ok t) :
    ∃ m, memWrite s.mem a v = .ok m ∧ t = { s with mem := m } := by
  cases hm : memWrite s.mem a v with
  | ok m => exact ⟨m, rfl, by simpa [setTarget, hm] using h.symm⟩
  | error f => simp [setTarget, hm] at h

theorem setTarget_keeps_inv {target : SetTarget} {values : List Nat} {s t : State} (hs : s.Inv)
    (h : setTarget target values s = .ok t) : t.Inv := by
  cases values with
  | nil => cases h
  | cons v vs =>
    cases target with
    | registers =>
      simp only [setTarget] at h
      obtain ⟨-, rfl⟩ := of_ite_eq_ok h
      exact hs.hostMove hs.pcBound hs.memWf hs.memLegal
    | stack =>
      simp only [setTarget] at h
      obtain ⟨-, rfl⟩ := of_ite_eq_ok h
      exact hs.hostMove hs.pcBound hs.memWf hs.memLegal
    | pc =>
      cases vs with
      | nil =>
        obtain ⟨hv, rfl⟩ := of_ite_eq_ok h
        exact hs.hostMove (toNat_ofNat_le hv) hs.memWf hs.memLegal
      | cons => cases h
    | memory a =>
      cases vs with
      | nil =>
        obtain ⟨m, hm, rfl⟩ := setTarget_memory_ok h
        obtain ⟨hwf, hlegal⟩ := memWrite_keeps hm
        exact hs.hostMove hs.pcBound (hwf hs.memWf) (hlegal hs.memLegal)
      | cons => cases h

theorem restoreSnapshot_keeps_inv {snap : Snapshot} {s t : State} (hs : s.Inv)
    (h : restoreSnapshot snap s = some t) : t.Inv := by
  obtain ⟨⟨hpc, -⟩, ht⟩ := Option.ite_none_right_eq_some.1 h
  cases ht
  exact hs.hostMove (toNat_ofNat_le hpc) hs.memWf hs.memLegal

/-- The state after a command meets the invariant, and it is the state before when the reply is an
error. -/
def AnswersSoundly (s : State) (answer : State × Reply) : Prop :=
  answer.1.Inv ∧ ∀ e, answer.2 = .error e → answer.1 = s

theorem State.Inv.answers_same {s : State} (hs : s.Inv) (r : Reply) : AnswersSoundly s (s, r) :=
  ⟨hs, fun _ _ => rfl⟩

theorem State.Inv.answers_next {t : State} (ht : t.Inv) (s : State) {r : Reply}
    (hr : ∀ e, r ≠ .error e) : AnswersSoundly s (t, r) :=
  ⟨ht, fun e he => absurd he (hr e)⟩

theorem State.Inv.answers_debug {s : State} (hs : s.Inv) (supervisor : Debug) :
    AnswersSoundly s ({ s with supervisor := supervisor }, .done) :=
  (hs.hostMove hs.pcBound hs.memWf hs.memLegal).answers_next s nofun

/-- Settles O56, by the commands: they run steps, reset, make a move that the host's duties allow, or
leave the state as it is. -/
theorem commandsKeepTheInvariant : Obligations.CommandsKeepTheInvariant := by
  intro fuel c s hs
  show AnswersSoundly s (execute fuel c s)
  cases c with
  | run => exact (advance_keeps_inv fuel hs).answers_next s nofun
  | step n => exact (advance_keeps_inv _ hs).answers_next s nofun
  | reset => exact (hostReset_keeps_inv hs).answers_next s nofun
  | summary | dump | other => exact hs.answers_same _
  | inspect target range =>
    rw [execute]
    split <;> exact hs.answers_same _
  | set target values =>
    rw [execute]
    split
    · next t ht => exact (setTarget_keeps_inv hs ht).answers_next s nofun
    · exact hs.answers_same _
  | restore snap =>
    rw [execute]
    split
    · next t ht => exact (restoreSnapshot_keeps_inv hs ht).answers_next s nofun
    · exact hs.answers_same _
  | breakpoint addr | watch addr =>
    rw [execute]
    split
    · exact hs.answers_debug _
    · exact hs.answers_same _
  | breakop name =>
    rw [execute]
    split
    · exact hs.answers_debug _
    · exact hs.answers_same _

end Sys2Proof.Machine
end
